-- ==== Sys2Proof/Word.lean ====
section
/-! DEFINITION. The words and bit strings EOE works on (00_scope.md R6, R7; 30_encoding.md R70). -/

namespace Sys2Proof

/-- A command word: `CW` = 64 bits, bit 63 the most significant (30_encoding.md R70). -/
abbrev CmdWord := BitVec 64

/-- The data operand field `D` of a command word: `DW` = 32 bits (30_encoding.md R70). -/
abbrev Operand := BitVec 32

/-- A register word: 32 bits (10_state.md R28). -/
abbrev RegWord := BitVec 32

/-- A register read address: `REG_AW` = 4 bits (10_state.md R28). -/
abbrev RegAddr := BitVec 4

/-- A bit string, written left to right: position 0 is the leftmost bit and the first emitted
(00_scope.md R7). `true` is the bit 1. -/
abbrev Bits := List Bool

end Sys2Proof
end

