-- ==== Sys2Proof/Syntax.lean ====
section
/-! DEFINITION. The seven commands (30_encoding.md R73; spec/opcode_table.json). -/

namespace Sys2Proof

/-- One constructor per row of the opcode table, with the operand fields of its format (R71). -/
inductive Instr where
  /-- `nop`, format Z (42_control.md R140). -/
  | nop
  /-- `open`, format Z (42_control.md R141). The name has a `C` because `open` is a word of Lean. -/
  | openC
  /-- `omega n`, format D: `n` = D (40_integer_codecs.md R107). -/
  | omega (n : Operand)
  /-- `fix7 v`, format D: `v` = D (40_integer_codecs.md R108). -/
  | fix7 (v : Operand)
  /-- `bits len, p`, format B: `lm1` = `LM1` = `len - 1`, `d` = D, the payload (41_bit_packer.md R130). -/
  | bits (lm1 : BitVec 5) (d : Operand)
  /-- `commit`, format Z (42_control.md R142). -/
  | commit
  /-- `abort`, format Z (42_control.md R143). -/
  | abort
  deriving DecidableEq, Repr

end Sys2Proof
end

