-- ==== Sys2Proof/WellFormed.lean ====
section
/-! DEFINITION. Which instruction terms have a legal word (30_encoding.md R71, R74). -/

namespace Sys2Proof

/-- The one condition the fields do not carry by their widths: the payload of BITS has no bit set at
or above `len` = `LM1 + 1`, that is `D[31:len] = 0` (R71, R74). Every `omega 0` and `fix7 v` with
`v >= 128` is well-formed: the word is legal and the error is raised when it runs (R72, R77). -/
def Instr.wellFormed : Instr → Bool
  | .nop => true
  | .openC => true
  | .omega _ => true
  | .fix7 _ => true
  | .bits lm1 d => decide (d.toNat < 2 ^ (lm1.toNat + 1))
  | .commit => true
  | .abort => true

end Sys2Proof
end

