-- ==== Sys2Proof/Decode.lean ====
section
/-! DEFINITION. Command words: fields, legality, decoder, encoder and opcode table (30_encoding.md).
The decoder is total on the 2^64 words and rejects by name. -/

namespace Sys2Proof

/-- Why a word is no command (30_encoding.md R75). EOE reports one code for all of them; the names
are the model's (log entry 16). -/
inductive Illegal where
  /-- `OP` is 0x7 to 0xF. -/
  | reservedOpcode (op : BitVec 4)
  /-- `RSV` is not 0. -/
  | reservedField
  /-- `LM1` or `D` is not 0 in a command that has no such operand. -/
  | unusedField
  /-- A BITS payload bit is set at or above `len`. -/
  | payloadAboveLength
  deriving DecidableEq, Repr

/-- What the decoder answers for a word. -/
inductive Decoded where
  | legal (i : Instr)
  | illegal (why : Illegal)
  deriving DecidableEq, Repr

/-! ### Fields (R70) -/

/-- `OP` = `w[63:60]`. -/
def opField (w : CmdWord) : BitVec 4 := w.extractLsb' 60 4

/-- `RSV` = `w[59:37]`. -/
def rsvField (w : CmdWord) : BitVec 23 := w.extractLsb' 37 23

/-- `LM1` = `w[36:32]`. -/
def lm1Field (w : CmdWord) : BitVec 5 := w.extractLsb' 32 5

/-- `D` = `w[31:0]`. -/
def dField (w : CmdWord) : Operand := w.extractLsb' 0 32

/-- `enc(OP, LM1, D) = (OP << 60) | (LM1 << 32) | D`, with `RSV` = 0 (R70). -/
def enc (op : BitVec 4) (lm1 : BitVec 5) (d : Operand) : CmdWord :=
  (op.setWidth 64 <<< 60) ||| (lm1.setWidth 64 <<< 32) ||| d.setWidth 64

/-! ### Legality, as R74 writes it -/

/-- `legal(w)` of R74, written from its pseudocode and not from the decoder. -/
def legal (w : CmdWord) : Bool :=
  match (opField w).toNat with
  | 0x0 | 0x1 | 0x5 | 0x6 => w.extractLsb' 0 60 == 0#60
  | 0x2 | 0x3 => w.extractLsb' 32 28 == 0#28
  | 0x4 =>
    let len := (lm1Field w).toNat + 1
    w.extractLsb' 37 23 == 0#23 && (len == 32 || dField w >>> len == 0#32)
  | _ => false

/-! ### Decoder (R71, R73) -/

/-- Format Z: no operand (R71). -/
def decodeZ (w : CmdWord) (i : Instr) : Decoded :=
  if rsvField w ≠ 0#23 then .illegal .reservedField
  else if lm1Field w ≠ 0#5 ∨ dField w ≠ 0#32 then .illegal .unusedField
  else .legal i

/-- Format D: a 32-bit operand (R71). -/
def decodeD (w : CmdWord) (mk : Operand → Instr) : Decoded :=
  if rsvField w ≠ 0#23 then .illegal .reservedField
  else if lm1Field w ≠ 0#5 then .illegal .unusedField
  else .legal (mk (dField w))

/-- Format B: a bit count and a payload (R71), with the condition a match and mask cannot express
(R74). -/
def decodeB (w : CmdWord) : Decoded :=
  if rsvField w ≠ 0#23 then .illegal .reservedField
  else if (Instr.bits (lm1Field w) (dField w)).wellFormed then .legal (.bits (lm1Field w) (dField w))
  else .illegal .payloadAboveLength

/-- The decoder: the opcode map of R73. -/
def decode (w : CmdWord) : Decoded :=
  match (opField w).toNat with
  | 0x0 => decodeZ w .nop
  | 0x1 => decodeZ w .openC
  | 0x2 => decodeD w .omega
  | 0x3 => decodeD w .fix7
  | 0x4 => decodeB w
  | 0x5 => decodeZ w .commit
  | 0x6 => decodeZ w .abort
  | _ => .illegal (.reservedOpcode (opField w))

/-! ### Encoder (R71, R73, R77) -/

/-- The opcode of each command (R73). -/
def opcode : Instr → BitVec 4
  | .nop => 0x0#4
  | .openC => 0x1#4
  | .omega _ => 0x2#4
  | .fix7 _ => 0x3#4
  | .bits _ _ => 0x4#4
  | .commit => 0x5#4
  | .abort => 0x6#4

/-- The word of an instruction (the `word` column of R77). -/
def encode : Instr → CmdWord
  | .nop => enc 0x0#4 0#5 0#32
  | .openC => enc 0x1#4 0#5 0#32
  | .omega n => enc 0x2#4 0#5 n
  | .fix7 v => enc 0x3#4 0#5 v
  | .bits lm1 d => enc 0x4#4 lm1 d
  | .commit => enc 0x5#4 0#5 0#32
  | .abort => enc 0x6#4 0#5 0#32

/-! ### The opcode table (spec/opcode_table.json) -/

/-- A row of the opcode table: a word belongs to it when `w & mask = pattern`. -/
structure OpcodeRow where
  mnemonic : String
  pattern : CmdWord
  mask : CmdWord
  deriving DecidableEq, Repr

/-- The seven rows, `match` and `mask` as the table gives them. -/
def opcodeTable : List OpcodeRow :=
  [⟨"nop", 0x0000000000000000#64, 0xFFFFFFFFFFFFFFFF#64⟩,
   ⟨"open", 0x1000000000000000#64, 0xFFFFFFFFFFFFFFFF#64⟩,
   ⟨"omega", 0x2000000000000000#64, 0xFFFFFFFF00000000#64⟩,
   ⟨"fix7", 0x3000000000000000#64, 0xFFFFFFFF00000000#64⟩,
   ⟨"bits", 0x4000000000000000#64, 0xFFFFFFE000000000#64⟩,
   ⟨"commit", 0x5000000000000000#64, 0xFFFFFFFFFFFFFFFF#64⟩,
   ⟨"abort", 0x6000000000000000#64, 0xFFFFFFFFFFFFFFFF#64⟩]

/-- The word matches the row. -/
def OpcodeRow.matches (r : OpcodeRow) (w : CmdWord) : Bool := w &&& r.mask == r.pattern

/-- The mnemonic of an instruction, as R73 and the table spell it. -/
def Instr.mnemonic : Instr → String
  | .nop => "nop"
  | .openC => "open"
  | .omega _ => "omega"
  | .fix7 _ => "fix7"
  | .bits _ _ => "bits"
  | .commit => "commit"
  | .abort => "abort"

/-! ### The host's view of the decoder -/

/-- The instruction the decoder reads from the word whose bits are `w`, numbered as the opcode table
numbers them (bit 0 the least significant of the one 64-bit word); bits at `nbits` and above are 0.
`none` where the decoder rejects (log entry 17). -/
def decodeTableWord (nbits w : Nat) : Option Instr :=
  match decode (BitVec.ofNat 64 (w % 2 ^ nbits)) with
  | .legal i => some i
  | .illegal _ => none

end Sys2Proof
end

