-- ==== Sys2Proof/Config.lean ====
section
/-! DEFINITION. The implementation parameters of EOE (00_scope.md R6). -/

namespace Sys2Proof

/-- `SYMW`: width of the fixed-width symbol field. -/
def symW : Nat := 7

/-- `NSYM`: alphabet size; the legal symbol values are 0 .. 127. -/
def nSym : Nat := 128

/-- `LMAX`: largest bit count of one BITS command. -/
def lMax : Nat := 32

/-- `OMAX`: largest Elias-Omega fragment for a 32-bit operand. -/
def oMax : Nat := 43

/-- The parameters a model takes as arguments. `LAT` and `EOE_BASE` are not here: no rule of EOE
depends on them (R6); `LAT` is a draw of the pin-level machine (Machine/Ports.lean) and `EOE_BASE`
an argument of `registerByteAddress` (Machine/Flags.lean). -/
structure Config where
  /-- `BUF_CAP`: capacity of the bit buffer in bits, default 16384 (R6). -/
  bufCap : Nat
  deriving DecidableEq, Repr

/-- The spec's default parameter value (R6). A claim should assume no value of `BUF_CAP`. -/
def Config.default : Config where
  bufCap := 16384

/-- The legal parameter values: `BUF_CAP` is at least `OMAX` = 43 (R6), and 32 bits hold it, since
`CAPR` [31:0] is hardwired to it (10_state.md R32). The upper bound is DEDUCED (log entry 1). -/
def Config.legal (c : Config) : Bool :=
  decide (oMax ≤ c.bufCap) && decide (c.bufCap < 2 ^ 32)

end Sys2Proof
end

