-- ==== Sys2Proof/Machine/BitString.lean ====
section
/-! DEFINITION. Bit-string and number-to-string notation of the spec (00_scope.md R8, R9).
`s ++ t`, `|s|` and `s[i]` are Lean's own `s ++ t`, `s.length` and `s[i]?`. -/

namespace Sys2Proof.Machine

/-- `s[i..j)`: the substring of positions `i` to `j - 1` (R8). Where the string ends before `j`, R8 is
silent: the part that exists (DESIGN CHOICE, log entry 6). -/
def slice (s : Bits) (i j : Nat) : Bits := (s.drop i).take (j - i)

/-- `clear0(s)`: `s` with position 0 set to 0 (R8). -/
def clear0 : Bits → Bits
  | [] => []
  | _ :: t => false :: t

/-- `set0(s)`: `s` with position 0 set to 1 (R8). -/
def set0 : Bits → Bits
  | [] => []
  | _ :: t => true :: t

/-- `val(s)`: the number whose binary numeral, most significant bit first, is `s` (R8). The spec
leaves `val("")` undefined and no rule calls it there (log entry 6). -/
def val (s : Bits) : Nat := s.foldl (fun v b => 2 * v + b.toNat) 0

/-- `fixed(n, w)`: the `w`-bit string with `val = n`, left-padded with zeros, for `n < 2^w` (R9).
Outside that domain no rule calls it (log entry 6). -/
def fixed (n : Nat) : Nat → Bits
  | 0 => []
  | w + 1 => n.testBit w :: fixed n w

/-- `nbits(n)`: the bit length of `n` (R9). -/
def nbits (n : Nat) : Nat := if n = 0 then 0 else n.log2 + 1

/-- `bin(n)` for `n >= 1`: the minimal binary numeral, no leading zero (R9). `bin(0)` is undefined
and no rule calls it (log entry 6). -/
def bin (n : Nat) : Bits := fixed n (nbits n)

end Sys2Proof.Machine
end

