-- ==== Sys2Proof/Machine/Codec.lean ====
section
/-! DEFINITION. The integer codecs: Elias-Omega and the 7-bit symbol field (40_integer_codecs.md). -/

namespace Sys2Proof.Machine

/-- The `while L >= 1` loop of R101: prepend `clear0(bin(L))`, go on with its length minus one.
`L` falls at every turn, so `fuel = L` turns are always enough (log entry 6). -/
def omegaLoop : Nat → Nat → Bits → Bits
  | 0, _, out => out
  | fuel + 1, L, out =>
    if 1 ≤ L then
      let g := clear0 (bin L)
      omegaLoop fuel (g.length - 1) (g ++ out)
    else out

/-- `omega(n)` of R101. `omega(0)` is undefined: no value (R101; 90_conflicts.md C3; 93 U1). -/
def omega (n : Nat) : Option Bits :=
  if n = 0 then none
  else
    let c := bin n
    some (omegaLoop (c.length - 1) (c.length - 1) c)

/-- `fix7(v)` of R106: `fixed(v, 7)` for `v <= 127`, undefined (no value) for `v >= 128`. -/
def fix7 (v : Nat) : Option Bits :=
  if v < nSym then some (fixed v symW) else none

end Sys2Proof.Machine
end

