-- ==== Sys2Proof/Machine/Operands.lean ====
section
/-! DEFINITION. Operand assembly (30_encoding.md R72): every operand is an unsigned number taken from
the word, with no sign extension, scaling or shifting. -/

namespace Sys2Proof.Machine

/-- OMEGA: `n = D`, 0 .. 2^32-1. -/
def omegaOperand (n : Operand) : Nat := n.toNat

/-- FIX7: `v = D`, 0 .. 2^32-1. -/
def fix7Operand (v : Operand) : Nat := v.toNat

/-- BITS: `len = LM1 + 1`, 1 .. 32. -/
def bitsLen (lm1 : BitVec 5) : Nat := lm1.toNat + 1

/-- BITS: `p = D[len-1:0]`. A legal word has no other bit set (R74); on a term that is not well-formed the
bits above are dropped, as `D[len-1:0]` says (DEDUCED, log entry 21). -/
def bitsPayload (lm1 : BitVec 5) (d : Operand) : Nat := d.toNat % 2 ^ bitsLen lm1

/-- BITS: the appended string `fixed(p, len)`, so `D[len-1]` comes first (R72; 41_bit_packer.md R130). -/
def bitsFragment (lm1 : BitVec 5) (d : Operand) : Bits := fixed (bitsPayload lm1 d) (bitsLen lm1)

end Sys2Proof.Machine
end

