-- ==== Sys2Proof/Machine/State.lean ====
section
/-! DEFINITION. The state of EOE (10_state.md R22 to R27, R37) and of its Host and Sink as far as
00_scope.md R5 names them, all plain data; the reasons a step can stop; reset. -/

namespace Sys2Proof.Machine

/-- `STATE`, the construction state (10_state.md R23). -/
inductive Ctl where
  /-- 0: no construction open. -/
  | idle
  /-- 1: a construction is open (`OPEN` of R23). -/
  | opened
  /-- 2: the last construction was committed and delivered. -/
  | done
  /-- 3: the last construction failed; `ERR` names why. -/
  | error
  deriving DecidableEq, Repr

/-- `ERR`, with exactly the values 0 to 6 (60_exceptions.md R180; 93 U9). -/
inductive ErrCode where
  /-- 0, `NONE`: no error since the last OPEN or reset. -/
  | noError
  /-- 1: any word that is not legal. -/
  | illegalCommand
  /-- 2: an append or COMMIT in IDLE or DONE. -/
  | sequence
  /-- 3: OMEGA with `n = 0`. -/
  | invalidArgument
  /-- 4: FIX7 with `v >= 128`. -/
  | unsupportedSymbol
  /-- 5: COMMIT with `BLEN = 0`. -/
  | invalidInput
  /-- 6: an append that does not fit. -/
  | overflow
  deriving DecidableEq, Repr

/-- The three operations of the Host on EOE (00_scope.md R5). -/
inductive HostOp where
  /-- `Cmd(w)`. -/
  | cmd (w : CmdWord)
  /-- `Read(a)`. -/
  | read (a : RegAddr)
  /-- `Reset`. -/
  | reset
  deriving DecidableEq, Repr

/-- The whole state. The first five fields after `cfg` are the architectural state of R22; the last
three are the Host and the Sink, outside EOE (R5, R22; log entries 3 and 4). -/
structure State where
  /-- The parameter `BUF_CAP` (00_scope.md R6); no step changes it (log entry 1). -/
  cfg : Config
  /-- `STATE` (R23). -/
  ctl : Ctl
  /-- `ERR` (R24). -/
  err : ErrCode
  /-- `BUF` (R25): the bits written since the last reset, `BUF[0]` first, the stale ones at `BLEN`
  and above among them. A bit no append has written has no value (93 U5; log entry 2). -/
  buf : Bits
  /-- `BLEN` (R25). -/
  blen : Nat
  /-- `LASTLEN` (R26). -/
  lastlen : Nat
  /-- The Host's operations not yet issued, the next one first. -/
  pending : List HostOp
  /-- The values the Host's reads returned, the oldest first. -/
  reads : List RegWord
  /-- The Sink log: the bitstreams delivered, the oldest first. -/
  sinkLog : List Bits
  deriving DecidableEq, Repr

/-- The reasons a step can end in a fault. There are none: every error of EOE is the state `ERROR`
(60_exceptions.md R181), which is a next state (log entry 20). -/
inductive Fault where
  deriving DecidableEq, Repr

/-- The reasons a step can be refused. -/
inductive Refusal where
  /-- Raised only by an arm of `exec` whose instruction has no meaning yet. Safe. -/
  | notModelled (mnemonic : String)
  /-- Raised only by the pin-level machine (Machine/Ports.lean), when the Host changes or withdraws a
  command word or a read request it must hold (70_reset_and_hazards.md R204; 93 U13: `refuse`). Safe:
  such a Host is outside what the spec admits. -/
  | hostBrokeHold
  deriving DecidableEq, Repr

/-- The state after reset with the parameters `c` (10_state.md R37): no bit of `BUF` has a value, the
Host has issued nothing and the Sink has nothing. -/
def State.resetOf (c : Config) : State where
  cfg := c
  ctl := .idle
  err := .noError
  buf := []
  blen := 0
  lastlen := 0
  pending := []
  reads := []
  sinkLog := []

/-- The state after reset, with the default parameters (R37; R6; log entry 1). -/
def State.reset : State := State.resetOf Config.default

end Sys2Proof.Machine
end

