-- ==== Sys2Proof/Machine/Flags.lean ====
section
/-! DEFINITION. The register read map (10_state.md R28 to R34). EOE has no flags (R35): `STATUS.STATE`
and `STATUS.ERR` are its only status fields. -/

namespace Sys2Proof.Machine

/-- The value of `STATE` (R23). -/
def ctlCode : Ctl → BitVec 2
  | .idle => 0#2
  | .opened => 1#2
  | .done => 2#2
  | .error => 3#2

/-- The value of `ERR` (60_exceptions.md R180). -/
def errCode : ErrCode → BitVec 4
  | .noError => 0#4
  | .illegalCommand => 1#4
  | .sequence => 2#4
  | .invalidArgument => 3#4
  | .unsupportedSymbol => 4#4
  | .invalidInput => 5#4
  | .overflow => 6#4

/-- `STATUS = zext_32(ERR) << 4 | zext_32(STATE)` (R29). -/
def statusWord (s : State) : RegWord :=
  ((errCode s.err).setWidth 32 <<< 4) ||| (ctlCode s.ctl).setWidth 32

/-- `BLENR` (R30). -/
def blenWord (s : State) : RegWord := BitVec.ofNat 32 s.blen

/-- `LASTLENR`: `LASTLEN` in [5:0], [31:6] hardwired 0 (R31). -/
def lastlenWord (s : State) : RegWord := (BitVec.ofNat 6 s.lastlen).setWidth 32

/-- `CAPR`: hardwired to `BUF_CAP` (R32). -/
def capWord (s : State) : RegWord := BitVec.ofNat 32 s.cfg.bufCap

/-- `Read(a)`: the word at register address `a` (R28, R33). -/
def readReg (s : State) (a : RegAddr) : RegWord :=
  match a.toNat with
  | 0x0 => statusWord s
  | 0x1 => blenWord s
  | 0x2 => lastlenWord s
  | 0x3 => capWord s
  | _ => 0#32

/-- Where a platform that maps the register window at `eoeBase` finds word `a` (20_memory.md R65;
`EOE_BASE` is open, log entry 13). -/
def registerByteAddress (eoeBase : Nat) (a : RegAddr) : Nat := eoeBase + 4 * a.toNat

end Sys2Proof.Machine
end

