-- ==== Sys2Proof/Machine/Ops.lean ====
section
/-! DEFINITION. The named operations every meaning is built from: raising an error, the append
primitive, the Sink write, the ERROR gate of `Step`, reset and register reads. -/

namespace Sys2Proof.Machine

/-- `BUF[0..BLEN)`: the bitstream (10_state.md R25; 20_memory.md R52). -/
def State.stream (s : State) : Bits := s.buf.take s.blen

/-- `raise Error(c)` (60_exceptions.md R181): the one way into `ERROR`. -/
def raiseError (c : ErrCode) (s : State) : State :=
  { s with ctl := .error, err := c, blen := 0 }

/-- `BUF` with the bits of `f` written at positions `pos`, `pos + 1`, ... (20_memory.md R51). -/
def writeBits (buf : Bits) (pos : Nat) (f : Bits) : Bits :=
  buf.take pos ++ f ++ buf.drop (pos + f.length)

/-- `BufAppend(s)` (20_memory.md R51): all of the fragment, or `OVERFLOW` and none of it. -/
def bufAppend (f : Bits) (s : State) : State :=
  if s.cfg.bufCap < s.blen + f.length then raiseError .overflow s
  else
    { s with
      buf := writeBits s.buf s.blen f
      blen := s.blen + f.length
      lastlen := f.length }

/-- `SinkWrite(f)` (20_memory.md R57): one complete transaction, one Sink log entry. -/
def sinkWrite (f : Bits) (s : State) : State := { s with sinkLog := s.sinkLog ++ [f] }

/-- The gate of `Step` (60_exceptions.md R182, R183): in `ERROR` the word is ignored. -/
def unlessError (act : State → State) (s : State) : State :=
  if s.ctl = .error then s else act s

/-- The state check of OMEGA, FIX7, BITS and COMMIT: `if STATE != OPEN: raise Error(SEQUENCE)`. -/
def requireOpen (act : State → State) (s : State) : State :=
  if s.ctl = .opened then act s else raiseError .sequence s

/-- An append command (R107, R108, R130): the state check, then the operand check (a fragment that
does not exist is the operand error `c`), then `BufAppend`. -/
def appendCommand (c : ErrCode) (f : Option Bits) (s : State) : State :=
  unlessError (requireOpen fun s =>
    match f with
    | none => raiseError c s
    | some f => bufAppend f s) s

/-- What `Step` does with a word that is not legal (60_exceptions.md R182, R183). -/
def illegalWord (s : State) : State := unlessError (raiseError .illegalCommand) s

/-- The Host operation `Reset` (10_state.md R37): every bit of `BUF` loses its value, the Sink log gets
no entry. What the Host and the Sink hold is outside EOE and stays (log entry 14). -/
def applyReset (s : State) : State :=
  { s with ctl := .idle, err := .noError, buf := [], blen := 0, lastlen := 0 }

/-- The Host operation `Read(a)` (10_state.md R28): returns the word and changes nothing else. -/
def hostRead (a : RegAddr) (s : State) : State := { s with reads := s.reads ++ [readReg s a] }

end Sys2Proof.Machine
end

