-- ==== Sys2Proof/Machine/BitPacker.lean ====
section
/-! DEFINITION. BITS (41_bit_packer.md R130). -/

namespace Sys2Proof.Machine

/-- BITS (R130): append `len` bits verbatim, `D[len-1]` first. -/
def execBits (lm1 : BitVec 5) (d : Operand) (s : State) : Host.Outcome State Fault Refusal :=
  .next (unlessError (requireOpen (bufAppend (bitsFragment lm1 d))) s)

end Sys2Proof.Machine
end

