-- ==== Sys2Proof/Machine/Control.lean ====
section
/-! DEFINITION. NOP, OPEN, COMMIT and ABORT (42_control.md). NOP, OPEN and ABORT run in every state,
ERROR among them (60_exceptions.md R183). -/

namespace Sys2Proof.Machine

/-- NOP (R140): no state changes. -/
def execNop (s : State) : Host.Outcome State Fault Refusal := .next s

/-- OPEN (R141): start a new construction; one that is open is discarded without a Sink write. -/
def execOpen (s : State) : Host.Outcome State Fault Refusal :=
  .next { s with ctl := .opened, err := .noError, blen := 0, lastlen := 0 }

/-- The body of COMMIT once `STATE = OPEN` (R142). -/
def commitOpened (s : State) : State :=
  if s.blen = 0 then raiseError .invalidInput s
  else { sinkWrite s.stream s with ctl := .done }

/-- COMMIT (R142): deliver the finished bitstream to the Sink, once. -/
def execCommit (s : State) : Host.Outcome State Fault Refusal :=
  .next (unlessError (requireOpen commitOpened) s)

/-- ABORT (R143): abandon the construction; `ERR` keeps its value. -/
def execAbort (s : State) : Host.Outcome State Fault Refusal :=
  .next { s with ctl := .idle, blen := 0, lastlen := 0 }

end Sys2Proof.Machine
end

