-- ==== Sys2Proof/Machine/IntegerCodecs.lean ====
section
/-! DEFINITION. OMEGA and FIX7 (40_integer_codecs.md R107, R108). -/

namespace Sys2Proof.Machine

/-- OMEGA (R107): append the Elias-Omega code of `n`; `n = 0` is `INVALID_ARGUMENT`. -/
def execOmega (n : Operand) (s : State) : Host.Outcome State Fault Refusal :=
  .next (appendCommand .invalidArgument (omega (omegaOperand n)) s)

/-- FIX7 (R108): append the 7-bit field of `v`; `v >= 128` is `UNSUPPORTED_SYMBOL`. -/
def execFix7 (v : Operand) (s : State) : Host.Outcome State Fault Refusal :=
  .next (appendCommand .unsupportedSymbol (fix7 (fix7Operand v)) s)

end Sys2Proof.Machine
end

