-- ==== Sys2Proof/Machine/Dispatch.lean ====
section
/-! DEFINITION. The dispatch: one arm per command (60_exceptions.md R182). -/

namespace Sys2Proof.Machine

def exec (i : Instr) (s : State) : Host.Outcome State Fault Refusal :=
  match i with
  | .nop => Sys2Proof.Machine.execNop s
  | .openC => Sys2Proof.Machine.execOpen s
  | .omega n => Sys2Proof.Machine.execOmega n s
  | .fix7 v => Sys2Proof.Machine.execFix7 v s
  | .bits lm1 d => Sys2Proof.Machine.execBits lm1 d s
  | .commit => Sys2Proof.Machine.execCommit s
  | .abort => Sys2Proof.Machine.execAbort s

end Sys2Proof.Machine
end

