-- ==== Sys2Proof/Machine/Step.lean ====
section
/-! DEFINITION. One step: the Host's next operation takes effect, atomically (00_scope.md R5;
20_memory.md R60; log entry 5). -/

namespace Sys2Proof.Machine

/-- `Step(w)` of 60_exceptions.md R182: what an accepted command word does. -/
def runWord (w : CmdWord) (s : State) : Host.Outcome State Fault Refusal :=
  match decode w with
  | .legal i => exec i s
  | .illegal _ => .next (illegalWord s)

/-- The next Host operation. With none left EOE idles and holds every piece of state
(60_exceptions.md R190; 70_reset_and_hazards.md R206). -/
def step (s : State) : Host.Outcome State Fault Refusal :=
  match s.pending with
  | [] => .next s
  | .cmd w :: rest => runWord w { s with pending := rest }
  | .read a :: rest => .next (hostRead a { s with pending := rest })
  | .reset :: rest => .next (applyReset { s with pending := rest })

/-- `s` with the command word whose bits are `w` as the Host's next operation (log entry 3). -/
def State.withFetchWord (s : State) (nbits w : Nat) : State :=
  { s with pending := .cmd (BitVec.ofNat 64 (w % 2 ^ nbits)) :: s.pending }

end Sys2Proof.Machine
end

