-- ==== Sys2Proof/Machine/Assembler.lean ====
section
/-! DEFINITION. The assembler syntax, the pseudo-instructions and the disassembler (30_encoding.md
R77, R78). Host-side: it says which words the notation of the spec stands for. -/

namespace Sys2Proof.Machine

/-- A line of assembly: the first and second forms of R77, and the pseudo-instructions of R78. -/
inductive AsmLine where
  | nop
  | openC
  | omega (n : Nat)
  | fix7 (v : Nat)
  /-- `bits len, p` -/
  | bits (len p : Nat)
  /-- `bits "s"` -/
  | bitsStr (s : Bits)
  | commit
  | abort
  /-- `cw "s"` -/
  | cw (s : Bits)
  /-- `entry sym, "s"` -/
  | entry (sym : Nat) (s : Bits)
  /-- `word 0x<hex>` -/
  | word (w : Nat)
  deriving DecidableEq, Repr

/-- `omega n` for `0 <= n < 2^32` (R77). -/
def asmOmega (n : Nat) : Option Instr :=
  if n < 2 ^ 32 then some (.omega (BitVec.ofNat 32 n)) else none

/-- `fix7 v` for `0 <= v < 2^32` (R77). -/
def asmFix7 (v : Nat) : Option Instr :=
  if v < 2 ^ 32 then some (.fix7 (BitVec.ofNat 32 v)) else none

/-- `bits len, p` for `1 <= len <= 32`, `0 <= p < 2^len` (R77). -/
def asmBits (len p : Nat) : Option Instr :=
  if 1 ≤ len ∧ len ≤ lMax ∧ p < 2 ^ len then
    some (.bits (BitVec.ofNat 5 (len - 1)) (BitVec.ofNat 32 p))
  else none

/-- `bits "s"` for `1 <= |s| <= 32`: `enc(0x4, |s|-1, val(s))` (R77). -/
def asmBitsStr (s : Bits) : Option Instr := asmBits s.length (val s)

/-- The chunks `c_0, ..., c_m` of a code word: 32 bits each from the left, the last one shorter if
need be (R78). The first argument is fuel, `|s|` being enough. -/
def chunksOf : Nat → Bits → List Bits
  | 0, _ => []
  | fuel + 1, s =>
    if s.length ≤ lMax then [s] else s.take lMax :: chunksOf fuel (s.drop lMax)

/-- The commands of the assembler lines, each in turn, or none if one is not assemblable. -/
def allOf : List (Option Instr) → Option (List Instr)
  | [] => some []
  | none :: _ => none
  | some i :: rest => (allOf rest).map (i :: ·)

/-- `cw "s"` for `|s| >= 1` (R78). -/
def asmCw (s : Bits) : Option (List Instr) :=
  if s.length = 0 then none else allOf ((chunksOf s.length s).map asmBitsStr)

/-- `entry sym, "s"`: `fix7 sym`, `omega |s|`, `cw "s"` (R78). -/
def asmEntry (sym : Nat) (s : Bits) : Option (List Instr) :=
  match asmFix7 sym, asmOmega s.length, asmCw s with
  | some f, some o, some c => some (f :: o :: c)
  | _, _, _ => none

/-- The instruction of a line that stands for exactly one (R77). -/
def asmOne (i : Option Instr) : Option (List CmdWord) := i.map fun i => [encode i]

/-- The words a line assembles to, or `none` where the assembler refuses it (R77, R78). -/
def assemble : AsmLine → Option (List CmdWord)
  | .nop => asmOne (some .nop)
  | .openC => asmOne (some .openC)
  | .omega n => asmOne (asmOmega n)
  | .fix7 v => asmOne (asmFix7 v)
  | .bits len p => asmOne (asmBits len p)
  | .bitsStr s => asmOne (asmBitsStr s)
  | .commit => asmOne (some .commit)
  | .abort => asmOne (some .abort)
  | .cw s => (asmCw s).map (List.map encode)
  | .entry sym s => (asmEntry sym s).map (List.map encode)
  | .word w => if w < 2 ^ 64 then some [BitVec.ofNat 64 w] else none

/-! ### Text (R77). What R77 leaves open of the text is log entry 18. -/

/-- The text without leading blanks. -/
def trimLeft (l : List Char) : List Char := l.dropWhile fun c => c == ' ' || c == '\t'

/-- The text without leading and trailing blanks. -/
def trimBoth (l : List Char) : List Char := (trimLeft (trimLeft l).reverse).reverse

/-- The pieces between commas. -/
def splitCommas : List Char → List (List Char)
  | [] => [[]]
  | ',' :: rest => [] :: splitCommas rest
  | c :: rest =>
    match splitCommas rest with
    | [] => [[c]]
    | piece :: pieces => (c :: piece) :: pieces

/-- The value of a digit in a base up to 16. -/
def digitValue (base : Nat) (c : Char) : Option Nat :=
  let v :=
    if '0'.toNat ≤ c.toNat ∧ c.toNat ≤ '9'.toNat then some (c.toNat - '0'.toNat)
    else if 'a'.toNat ≤ c.toNat ∧ c.toNat ≤ 'f'.toNat then some (c.toNat - 'a'.toNat + 10)
    else if 'A'.toNat ≤ c.toNat ∧ c.toNat ≤ 'F'.toNat then some (c.toNat - 'A'.toNat + 10)
    else none
  v.filter (· < base)

/-- The value of a run of digits, most significant first, after `acc`. -/
def digitsValue (base acc : Nat) : List Char → Option Nat
  | [] => some acc
  | c :: rest =>
    match digitValue base c with
    | some v => digitsValue base (acc * base + v) rest
    | none => none

/-- A number: decimal, `0x` hexadecimal or `0b` binary (R77). -/
def parseNumber : List Char → Option Nat
  | [] => none
  | '0' :: 'x' :: c :: rest => digitsValue 16 0 (c :: rest)
  | '0' :: 'b' :: c :: rest => digitsValue 2 0 (c :: rest)
  | c :: rest => digitsValue 10 0 (c :: rest)

/-- The rest of a quoted string of `0` and `1` characters (R77). -/
def parseQuotedRest : List Char → Option Bits
  | ['"'] => some []
  | '0' :: rest => (parseQuotedRest rest).map (false :: ·)
  | '1' :: rest => (parseQuotedRest rest).map (true :: ·)
  | _ => none

/-- A quoted bit string (R77). -/
def parseQuoted : List Char → Option Bits
  | '"' :: rest => parseQuotedRest rest
  | _ => none

/-- A mnemonic with its operands' texts (R77, R78). -/
def parseFields (mnemonic : String) (ops : List (List Char)) : Option AsmLine :=
  match mnemonic, ops with
  | "nop", [] => some .nop
  | "open", [] => some .openC
  | "omega", [n] => (parseNumber n).map .omega
  | "fix7", [v] => (parseNumber v).map .fix7
  | "bits", [s] => (parseQuoted s).map .bitsStr
  | "bits", [len, p] =>
    match parseNumber len, parseNumber p with
    | some len, some p => some (.bits len p)
    | _, _ => none
  | "commit", [] => some .commit
  | "abort", [] => some .abort
  | "cw", [s] => (parseQuoted s).map .cw
  | "entry", [sym, s] =>
    match parseNumber sym, parseQuoted s with
    | some sym, some s => some (.entry sym s)
    | _, _ => none
  | "word", ['0' :: 'x' :: rest] => (parseNumber ('0' :: 'x' :: rest)).map .word
  | _, _ => none

/-- The words of one line of assembly text: a comment runs from `;` to the end of the line, and a line
with nothing else has no words (R77). -/
def assembleText (line : List Char) : Option (List CmdWord) :=
  let text := trimBoth (line.takeWhile (· != ';'))
  let mnemonic := text.takeWhile fun c => !(c == ' ' || c == '\t')
  let operands := trimLeft (text.drop mnemonic.length)
  if text.isEmpty then some []
  else
    (parseFields (String.ofList mnemonic)
      (if operands.isEmpty then [] else (splitCommas operands).map trimBoth)).bind assemble

/-! ### Disassembler (R77) -/

/-- A hexadecimal digit. -/
def hexDigit (v : Nat) : Char :=
  if v < 10 then Char.ofNat ('0'.toNat + v) else Char.ofNat ('A'.toNat + (v - 10))

/-- The number in exactly `digits` hexadecimal digits. -/
def hexFixed (digits n : Nat) : List Char :=
  (List.range digits).reverse.map fun k => hexDigit (n / 16 ^ k % 16)

/-- The number in hexadecimal without leading zeros, of at most 8 digits. -/
def hexMinimal (n : Nat) : List Char :=
  match (hexFixed 8 n).dropWhile (· == '0') with
  | [] => ['0']
  | c :: rest => c :: rest

/-- The number in decimal, of at most `fuel` digits. -/
def decimalDigits : Nat → Nat → List Char
  | 0, _ => []
  | fuel + 1, n =>
    (if n < 10 then [] else decimalDigits fuel (n / 10)) ++ [hexDigit (n % 10)]

/-- A 32-bit number in decimal: at most 10 digits. -/
def decimal (n : Nat) : List Char := decimalDigits 10 n

/-- A legal word in the first form of R77, an illegal one as `.illegal 0x<16 hex digits>` (R77). -/
def disassemble (w : CmdWord) : List Char :=
  match decode w with
  | .legal .nop => "nop".toList
  | .legal .openC => "open".toList
  | .legal (.omega n) => "omega ".toList ++ decimal n.toNat
  | .legal (.fix7 v) => "fix7 ".toList ++ decimal v.toNat
  | .legal (.bits lm1 d) =>
    "bits ".toList ++ decimal (lm1.toNat + 1) ++ ", 0x".toList ++ hexMinimal d.toNat
  | .legal .commit => "commit".toList
  | .legal .abort => "abort".toList
  | .illegal _ => ".illegal 0x".toList ++ hexFixed 16 w.toNat

end Sys2Proof.Machine
end

