-- ==== Sys2Proof/Machine/Reference.lean ====
section
/-! DEFINITION. The spec's reference functions: the Elias-Omega decoder (40_integer_codecs.md R105), the
header and its parser (43_header_format.md R160, R165), the Host's command sequence (R162, R163) and the
Host's code words (R164). None of them is EOE hardware (00_scope.md R3). -/

namespace Sys2Proof.Machine

/-- How a reference parser fails (R105, R165; 93 U15). -/
inductive ParseFailure where
  | truncated
  | trailingBits
  deriving DecidableEq, Repr

/-- The loop of `omega_decode` (R105). Every turn takes at least one bit, so `|s| + 1` turns are
enough fuel. -/
def omegaDecodeLoop (s : Bits) : Nat → Nat → Nat → Except ParseFailure (Nat × Nat)
  | 0, _, _ => .error .truncated
  | fuel + 1, len, pos =>
    if s.length < pos + len then .error .truncated
    else
      let g := slice s pos (pos + len)
      if g[0]? = some true then .ok (val g, pos + len)
      else omegaDecodeLoop s fuel (val (set0 g) + 1) (pos + len)

/-- `omega_decode(s, pos)`: the value and the next position (R105). -/
def omegaDecode (s : Bits) (pos : Nat) : Except ParseFailure (Nat × Nat) :=
  omegaDecodeLoop s (s.length + 1) 1 pos

/-- A CodeWordEntry: a symbol and its code word (00_scope.md R12). -/
abbrev CodeEntry := Nat × Bits

/-- `Entry(s) = fix7(s) ++ omega(|c_s|) ++ c_s` (R160); no value where one of them has none. -/
def entryBits (e : CodeEntry) : Option Bits :=
  match fix7 e.1, omega e.2.length with
  | some f, some o => some (f ++ o ++ e.2)
  | _, _ => none

/-- The entries' bits, in order. -/
def entriesBits : List CodeEntry → Option Bits
  | [] => some []
  | e :: rest =>
    match entryBits e, entriesBits rest with
    | some b, some bs => some (b ++ bs)
    | _, _ => none

/-- `Header = omega(U) ++ Entry(s_1) ++ ... ++ Entry(s_U)` (R160). -/
def header (es : List CodeEntry) : Option Bits :=
  match omega es.length, entriesBits es with
  | some u, some b => some (u ++ b)
  | _, _ => none

/-- The `repeat U times` loop of `parse_header` (R165): the entries and the position after them. -/
def parseEntries (s : Bits) : Nat → Nat → Except ParseFailure (List CodeEntry × Nat)
  | 0, p => .ok ([], p)
  | u + 1, p =>
    if s.length < p + 7 then .error .truncated
    else
      match omegaDecode s (p + 7) with
      | .error f => .error f
      | .ok (n, p') =>
        if s.length < p' + n then .error .truncated
        else
          match parseEntries s u (p' + n) with
          | .error f => .error f
          | .ok (es, q) => .ok ((val (slice s p (p + 7)), slice s p' (p' + n)) :: es, q)

/-- `parse_header(s)` (R165). -/
def parseHeader (s : Bits) : Except ParseFailure (List CodeEntry) :=
  match omegaDecode s 0 with
  | .error f => .error f
  | .ok (u, p) =>
    match parseEntries s u p with
    | .error f => .error f
    | .ok (es, q) => if q ≠ s.length then .error .trailingBits else .ok es

/-- The commands of the `entry` lines of R162. -/
def entriesCommands : List CodeEntry → Option (List Instr)
  | [] => some []
  | e :: rest =>
    match asmEntry e.1 e.2, entriesCommands rest with
    | some c, some cs => some (c ++ cs)
    | _, _ => none

/-- The Host's command sequence for a header, OPEN to COMMIT (R162). -/
def headerCommands (es : List CodeEntry) : Option (List Instr) :=
  match asmOmega es.length, entriesCommands es with
  | some u, some cs => some (.openC :: u :: cs ++ [.commit])
  | _, _ => none

/-! ### The Host's code words (R164) -/

/-- A node of the priority queue: the symbols it subsumes with their code words so far, its weight and
its insertion sequence number. -/
structure HuffNode where
  label : List CodeEntry
  weight : Nat
  seq : Nat
  deriving DecidableEq, Repr

/-- The order of the queue: `(weight, |label|, seq)`, ascending (R164 step 4). -/
def HuffNode.before (a b : HuffNode) : Bool :=
  a.weight < b.weight ||
    (a.weight == b.weight &&
      (a.label.length < b.label.length || (a.label.length == b.label.length && a.seq < b.seq)))

/-- The queue with a node put where the order has it. -/
def huffInsert (n : HuffNode) : List HuffNode → List HuffNode
  | [] => [n]
  | m :: rest => if n.before m then n :: m :: rest else m :: huffInsert n rest

/-- The FrequencyTable: each symbol's count, the symbols of non-zero count in ascending order (R164
step 1; R161). -/
def frequencies (text : List Nat) : List (Nat × Nat) :=
  ((List.range nSym).map fun s => (s, text.count s)).filter fun p => p.2 != 0

/-- The code word of every symbol of a label, with a bit put before it (R164 step 5). -/
def prependBit (b : Bool) (label : List CodeEntry) : List CodeEntry := label.map fun e => (e.1, b :: e.2)

/-- The merges of R164 steps 5 and 6: each turn takes one node out of the queue, so its length is
enough fuel. -/
def huffMerge : Nat → Nat → List HuffNode → List CodeEntry
  | fuel + 1, seq, a :: b :: rest =>
    huffMerge fuel (seq + 1) (huffInsert
      { label := prependBit false a.label ++ prependBit true b.label
        weight := a.weight + b.weight
        seq := seq } rest)
  | _, _, a :: _ => a.label
  | _, _, [] => []

/-- The seeds: one node per symbol, `seq` 0, 1, ... in ascending symbol order (R164 steps 3 and 4). -/
def huffSeeds : Nat → List (Nat × Nat) → List HuffNode
  | _, [] => []
  | seq, (s, c) :: rest =>
    huffInsert { label := [(s, [])], weight := c, seq := seq } (huffSeeds (seq + 1) rest)

/-- The code words of a text's symbols, in ascending symbol order; a single symbol gets "0" (R164,
R161). -/
def codeWords (text : List Nat) : List CodeEntry :=
  match frequencies text with
  | [(s, _)] => [(s, [false])]
  | fs =>
    let nodes := huffSeeds 0 fs
    let merged := huffMerge nodes.length nodes.length nodes
    fs.filterMap fun p => merged.find? fun e => e.1 == p.1

/-- The Host's input checks and command sequence for a text (R162, R163): an empty text is
`InvalidInput`, a symbol of 128 or more `UnsupportedSymbol`. -/
def construct (text : List Nat) : Except ErrCode (List Instr) :=
  if text.isEmpty then .error .invalidInput
  else if text.any fun s => nSym ≤ s then .error .unsupportedSymbol
  else
    match headerCommands (codeWords text) with
    | some cs => .ok cs
    | none => .error .invalidArgument

end Sys2Proof.Machine
end

