-- ==== Sys2Proof/Machine/HostProgram.lean ====
section
/-! DEFINITION. The Host's program for one header, with its reads of EOE (43_header_format.md R162, R167):
the commands OPEN to COMMIT, then `Read(0x0)` until `STATE` is DONE or ERROR; and its check of `CAPR`. A
Host is software outside EOE (00_scope.md R3); it acts on EOE only by `Cmd`, `Read` and `Reset` (R5). -/

namespace Sys2Proof.Machine

/-- The state after the Host has issued the operations, each one whole before the next (R5, R60). -/
def issue : List HostOp → State → Host.Outcome State Fault Refusal
  | [], s => .next s
  | op :: rest, s =>
    match step { s with pending := [op] } with
    | .next t => issue rest t
    | .fault f => .fault f
    | .refused r => .refused r

/-- `STATE`, as the word of a read of `STATUS` shows it (10_state.md R29), is DONE (2) or ERROR (3). -/
def constructionOver (status : RegWord) : Bool :=
  status.extractLsb' 0 2 == 2#2 || status.extractLsb' 0 2 == 3#2

/-- `Read(0x0) until STATE is DONE (2) or ERROR (3)` (R162). The first argument is how many reads the Host
is willing to make (DESIGN CHOICE, log entry 22); one is enough after a COMMIT. -/
def pollStatus : Nat → State → Host.Outcome State Fault Refusal
  | 0, s => .next s
  | polls + 1, s =>
    match issue [.read 0x0#4] s with
    | .next t => if t.reads.getLast?.any constructionOver then .next t else pollStatus polls t
    | .fault f => .fault f
    | .refused r => .refused r

/-- The commands, then the reads of `STATUS` (R162). -/
def runProgram (polls : Nat) (cs : List Instr) (s : State) : Host.Outcome State Fault Refusal :=
  match issue (cs.map fun i => .cmd (encode i)) s with
  | .next t => pollStatus polls t
  | .fault f => .fault f
  | .refused r => .refused r

/-- The whole sequence of R162 for the entries; none where a line of it is not assemblable. -/
def buildHeader (polls : Nat) (es : List CodeEntry) (s : State) :
    Option (Host.Outcome State Fault Refusal) :=
  (headerCommands es).map fun cs => runProgram polls cs s

/-- The whole Host for a text: the checks of R163, the code words of R164, the program of R162. -/
def buildText (polls : Nat) (text : List Nat) (s : State) :
    Except ErrCode (Host.Outcome State Fault Refusal) :=
  (construct text).map fun cs => runProgram polls cs s

/-- The streams the Sink got between `before` and the end of a run (20_memory.md R57). -/
def delivered (before : State) : Host.Outcome State Fault Refusal → List Bits
  | .next t => t.sinkLog.drop before.sinkLog.length
  | .fault _ => []
  | .refused _ => []

/-- The length in bits of the longest header of all (R167). -/
def maxHeaderBits : Nat := 10657

/-- The Host's check of `CAPR` (10_state.md R32) against one header: it fits the capacity. -/
def headerFits (capr : RegWord) (es : List CodeEntry) : Bool :=
  (header es).any fun h => h.length ≤ capr.toNat

/-- The Host's check of `CAPR` against every header at once: `BUF_CAP >= 10657` (R167). -/
def everyHeaderFits (capr : RegWord) : Bool := maxHeaderBits ≤ capr.toNat

end Sys2Proof.Machine
end

