-- ==== Sys2Proof/Machine/Sink.lean ====
section
/-! DEFINITION. The packing of a bitstream into beats of the sink port, and the Sink's unpacking
(20_memory.md R55, R56). -/

namespace Sys2Proof.Machine

/-- One beat of the sink port (R55, R66). -/
structure Beat where
  /-- `snk_data`: the first stream bit of the beat in bit 7. -/
  data : BitVec 8
  /-- `snk_nbits`: 1 .. 8 valid bits. -/
  nbits : BitVec 4
  /-- `snk_first`. -/
  first : Bool
  /-- `snk_last`. -/
  last : Bool
  /-- `snk_bitlen`: the bit length of the whole transaction. -/
  bitlen : BitVec 32
  deriving DecidableEq, Repr

/-- `NB = ceil(B / 8)`: the number of beats for `B` bits (R55). -/
def beatCount (bits : Nat) : Nat := (bits + 7) / 8

/-- The bits of beat `k`: 8, or in the last beat those that are left (R55: `snk_nbits` of them). That
`slice` stops at the end of the stream is log entry 6. -/
def beatBits (s : Bits) (k : Nat) : Bits := slice s (8 * k) (8 * k + 8)

/-- Beat `k` of the transaction for `s`: the bits from bit 7 down, the pad bits 0 (R55). -/
def beat (s : Bits) (k : Nat) : Beat where
  data := BitVec.ofNat 8 (val (beatBits s k ++ List.replicate (8 - (beatBits s k).length) false))
  nbits := BitVec.ofNat 4 (min 8 (s.length - 8 * k))
  first := k == 0
  last := k == beatCount s.length - 1
  bitlen := BitVec.ofNat 32 s.length

/-- The transaction for `s`: its beats in order (R55). -/
def beats (s : Bits) : List Beat := (List.range (beatCount s.length)).map (beat s)

/-- `pack(s)`: the list of `snk_data` bytes (R55). -/
def pack (s : Bits) : List (BitVec 8) := (beats s).map Beat.data

/-- The stream bits a beat carries: its `snk_nbits` first bits from bit 7 down (R55, R56). -/
def Beat.bits (b : Beat) : Bits := (fixed b.data.toNat 8).take b.nbits.toNat

/-- What the Sink takes a transaction's beats to carry, in stream order (R56). -/
def unpack (bs : List Beat) : Bits := bs.flatMap Beat.bits

/-- The artifact the Sink writes: one character per stream bit, no framing (R56). -/
def artifact (s : Bits) : List Char := s.map fun b => if b then '1' else '0'

/-- What stands at the artifact's location after the transactions of a Sink log: the last one's, which has
fully replaced any prior content (R56). Nothing, or what stood there before, with none. -/
def storedArtifact (before : Option (List Char)) (log : List Bits) : Option (List Char) :=
  match log.getLast? with
  | some s => some (artifact s)
  | none => before

end Sys2Proof.Machine
end

