-- ==== Sys2Proof/Machine/Ports.lean ====
section
/-! DEFINITION. EOE at its pins, one clock edge a step (20_memory.md R55 to R57, R66 to R69;
70_reset_and_hazards.md R200, R201, R204, R205). The meaning of a command is `runWord`, the atomic
machine's own; this machine adds the handshakes, the command in progress and the sink transfer
(10_state.md R36). A payload whose valid signal is 0 is no value (`none`; log entry 19). -/

namespace Sys2Proof.Machine

/-- The input pins at one rising edge of `clk` (R66). -/
structure PortIn where
  rst : Bool
  cmdValid : Bool
  cmdData : CmdWord
  regReq : Bool
  regAddr : RegAddr
  snkReady : Bool
  deriving DecidableEq, Repr

/-- What the spec leaves to the implementation at one edge: draws under no law. -/
structure PortDraw where
  /-- The command in progress has done its work: `LAT` is open (R205; 93 U11; log entry 7). -/
  finish : Bool
  /-- A waiting register read is acknowledged now: R68 bounds when it may be, not when it is
  (log entry 9). -/
  ack : Bool
  deriving DecidableEq, Repr

/-- The output pins (R66). `reg_ack` with `reg_rdata`, and `snk_valid` with the beat, are options:
`none` is the valid signal at 0. -/
structure PortOut where
  cmdReady : Bool
  regRdata : Option RegWord
  snkBeat : Option Beat
  deriving DecidableEq, Repr

/-- The command in progress (10_state.md R36). -/
inductive Work where
  /-- No command in progress. -/
  | ready
  /-- The command `w` was transferred and is not complete. -/
  | running (w : CmdWord)
  /-- The COMMIT word `w` is delivering: `k` beats have transferred, beat `k` is offered. -/
  | sending (w : CmdWord) (k : Nat)
  deriving DecidableEq, Repr

/-- EOE at its pins, with what the Host must hold and what the Sink has of an unterminated
transaction. -/
structure PortState where
  /-- The architectural state; its `pending` is not used at the pins. -/
  core : State
  /-- The command in progress. -/
  work : Work
  /-- The command word offered in the last cycle and not transferred (R67, R204). -/
  offered : Option CmdWord
  /-- The register address requested in the last cycle and not acknowledged (R68, R204). -/
  asked : Option RegAddr
  /-- The beats of the transaction in progress that the Sink has accepted (R56, R201). -/
  received : List Beat
  deriving DecidableEq, Repr

/-- The pins after a reset edge (R200): the reset state, no command in progress, no sink transfer, and
the Sink has discarded an unterminated transaction (R201; 92_eei_decisions.md D15; log entry 12). -/
def portReset (p : PortState) : PortState where
  core := applyReset p.core
  work := .ready
  offered := none
  asked := none
  received := []

/-- The pins right after the first reset, with parameters `c`. -/
def PortState.resetOf (c : Config) : PortState where
  core := State.resetOf c
  work := .ready
  offered := none
  asked := none
  received := []

/-- A command word is accepted in this cycle: none in progress and `rst = 0` (R67). That it is
accepted whenever it may be is DEDUCED (log entry 8). -/
def cmdReady (p : PortState) (i : PortIn) : Bool := !i.rst && decide (p.work = .ready)

/-- The register word acknowledged in this cycle, if one is (R68). -/
def regAck (p : PortState) (i : PortIn) (d : PortDraw) : Option RegWord :=
  if cmdReady p i && i.regReq && d.ack then some (readReg p.core i.regAddr) else none

/-- The beat offered in this cycle, if one is (R69): only while a COMMIT is delivering. -/
def snkBeat (p : PortState) (i : PortIn) : Option Beat :=
  match p.work with
  | .sending _ k => if i.rst then none else some (beat p.core.stream k)
  | .running _ => none
  | .ready => none

/-- The output pins (R66 to R69, R200). -/
def portOut (p : PortState) (i : PortIn) (d : PortDraw) : PortOut where
  cmdReady := cmdReady p i
  regRdata := regAck p i d
  snkBeat := snkBeat p i

/-- The Host withdraws or changes a command word or a read request it must hold (R67, R68, R204). -/
def breaksHold (p : PortState) (i : PortIn) : Bool :=
  (match p.offered with
    | some w => !(i.cmdValid && i.cmdData == w)
    | none => false) ||
  (match p.asked with
    | some a => !(i.regReq && i.regAddr == a)
    | none => false)

/-- The word `w` makes EOE write the Sink: a COMMIT that delivers (42_control.md R142). -/
def delivers (w : CmdWord) (s : State) : Bool :=
  decide (decode w = .legal .commit) && decide (s.ctl = .opened) && decide (s.blen ≠ 0)

/-- The core after the reads of this cycle: a read comes before a command transferred in the same
cycle (R68; 60_exceptions.md R187). -/
def coreAfterRead (p : PortState) (i : PortIn) (d : PortDraw) : State :=
  if (regAck p i d).isSome then hostRead i.regAddr p.core else p.core

/-- `p` with what the Host must hold in the next cycle (R67, R68). -/
def holdDuties (p : PortState) (i : PortIn) (d : PortDraw) : PortState :=
  { p with
    offered := if i.cmdValid && !cmdReady p i then some i.cmdData else none
    asked := if i.regReq && (regAck p i d).isNone then some i.regAddr else none }

/-- The command `w` completes: the atomic machine's effect, all of it, now (R60). -/
def complete (w : CmdWord) (p : PortState) : Host.Outcome PortState Fault Refusal :=
  match runWord w p.core with
  | .next c => .next { p with core := c, work := .ready, received := [] }
  | .fault r => .fault r
  | .refused r => .refused r

/-- The last beat of a COMMIT transfers: the command completes, and the Sink log's entry is what the
beats on the port carried (R56, R57, R201). That COMMIT completes at that very edge is DEDUCED (log
entry 10). -/
def completeDelivery (w : CmdWord) (bs : List Beat) (p : PortState) :
    Host.Outcome PortState Fault Refusal :=
  match complete w p with
  | .next q => .next { q with core := { q.core with sinkLog := p.core.sinkLog ++ [unpack bs] } }
  | .fault r => .fault r
  | .refused r => .refused r

/-- The command in progress at a rising edge with `rst = 0`. A beat that transfers is followed by the next
beat in the next cycle ("with nothing in between", R55; DEDUCED, log entry 10). -/
def workEdge (p : PortState) (i : PortIn) (d : PortDraw) : Host.Outcome PortState Fault Refusal :=
  match p.work with
  | .ready => .next (if i.cmdValid then { p with work := .running i.cmdData } else p)
  | .running w =>
    if d.finish then
      if delivers w p.core then .next { p with work := .sending w 0, received := [] }
      else complete w p
    else .next p
  | .sending w k =>
    if i.snkReady then
      let b := beat p.core.stream k
      if b.last then completeDelivery w (p.received ++ [b]) p
      else .next { p with work := .sending w (k + 1), received := p.received ++ [b] }
    else .next p

/-- One rising edge of `clk` (R66 to R69, R200, R201, R204). Reset wins over everything (R187). -/
def clockEdge (p : PortState) (i : PortIn) (d : PortDraw) : Host.Outcome PortState Fault Refusal :=
  if i.rst then .next (portReset p)
  else if breaksHold p i then .refused .hostBrokeHold
  else workEdge { holdDuties p i d with core := coreAfterRead p i d } i d

/-- The Host operations that take effect at this edge, in order: the atomic view of the edge (R5,
R60). -/
def edgeOps (p : PortState) (i : PortIn) (d : PortDraw) : List HostOp :=
  if i.rst then [.reset]
  else
    match p.work with
    | .ready => if (regAck p i d).isSome then [.read i.regAddr] else []
    | .running w => if d.finish && !delivers w p.core then [.cmd w] else []
    | .sending w k => if i.snkReady && (beat p.core.stream k).last then [.cmd w] else []

/-- A run of clock edges. -/
def portRun (p : PortState) : List (PortIn × PortDraw) → Host.Outcome PortState Fault Refusal
  | [] => .next p
  | (i, d) :: rest =>
    match clockEdge p i d with
    | .next q => portRun q rest
    | .fault r => .fault r
    | .refused r => .refused r

/-- The Host operations that take effect along a run of clock edges, in order. -/
def runOps (p : PortState) : List (PortIn × PortDraw) → List HostOp
  | [] => []
  | (i, d) :: rest =>
    match clockEdge p i d with
    | .next q => edgeOps p i d ++ runOps q rest
    | .fault _ => []
    | .refused _ => []

end Sys2Proof.Machine
end

