-- ==== Sys2Proof/Safety.lean ====
section
/-! DEFINITION. What claims speak of: the spec's invariants (10_state.md R27) and the model's own, the
observation of a run (70_reset_and_hazards.md R206), the hidden bits (10_state.md R25, R36), and the
testable properties of a header (43_header_format.md R166). -/

namespace Sys2Proof

open Machine

/-- The invariants of 10_state.md R27, in its order. `ERR` may be non-zero in IDLE. -/
structure SpecInv (s : State) : Prop where
  idle : s.ctl = .idle → s.blen = 0 ∧ s.lastlen = 0
  error : s.ctl = .error → s.blen = 0 ∧ s.err ≠ .noError
  done : s.ctl = .done → 1 ≤ s.blen ∧ s.err = .noError
  opened : s.ctl = .opened → s.err = .noError
  fits : s.blen ≤ s.cfg.bufCap

/-- The form of the bit buffer: the valid bits were all written since reset, and no bit lies beyond
`BUF_CAP` (R22, R25). The model's own form of "BUF holds BUF_CAP bits" (log entry 2). -/
structure BufForm (s : State) : Prop where
  written : s.blen ≤ s.buf.length
  within : s.buf.length ≤ s.cfg.bufCap

/-- What `LASTLEN` says of the open or delivered stream (R26): it is the length of one of its
fragments, so it is at most `BLEN`, and 0 exactly when nothing was appended. -/
structure LastLenInv (s : State) : Prop where
  range : s.lastlen ≤ oMax
  within : s.ctl = .opened ∨ s.ctl = .done → s.lastlen ≤ s.blen
  zero : s.ctl = .opened ∨ s.ctl = .done → (s.lastlen = 0 ↔ s.blen = 0)

/-- In `DONE` the buffer still holds the bitstream last delivered (R23, R25). -/
structure DeliveredInv (s : State) : Prop where
  last : s.ctl = .done → s.sinkLog.getLast? = some s.stream

/-- The observation of a run (R206): what the reads returned, the final state, and the Sink log. It
says nothing of the bits of `BUF` beyond `BLEN`. -/
structure Observation where
  reads : List RegWord
  ctl : Ctl
  err : ErrCode
  stream : Bits
  blen : Nat
  lastlen : Nat
  sinkLog : List Bits
  deriving DecidableEq, Repr

/-- The observation of a state (R206). -/
def observe (s : State) : Observation where
  reads := s.reads
  ctl := s.ctl
  err := s.err
  stream := s.stream
  blen := s.blen
  lastlen := s.lastlen
  sinkLog := s.sinkLog

/-- Two states that differ in nothing but stale bits of `BUF` (R25). -/
structure SameButStale (s t : State) : Prop where
  rest : { s with buf := t.buf } = t
  stream : s.stream = t.stream

/-- What the Sink has, by the command in progress: a delivery is of a COMMIT that delivers, has not
passed its last beat, and the Sink has the beats before the offered one; otherwise the Sink has
nothing of an unterminated transaction (20_memory.md R69; 10_state.md R36). -/
def DeliveryInProgress (p : PortState) : Prop :=
  match p.work with
  | .ready => p.received = []
  | .running _ => p.received = []
  | .sending w k =>
    delivers w p.core = true ∧ k < beatCount p.core.stream.length ∧
      p.received = (beats p.core.stream).take k

/-- What holds at the pins between clock edges. -/
structure PortInv (p : PortState) : Prop where
  buffer : BufForm p.core
  delivery : DeliveryInProgress p

/-- `k` steps, as `Host.Core.run` of `core`: `k` Host operations, one after the other (R5, R60). -/
def runSteps : Nat → State → Host.Outcome State Fault Refusal
  | 0, s => .next s
  | k + 1, s =>
    match step s with
    | .next t => runSteps k t
    | .fault r => .fault r
    | .refused r => .refused r

/-- The Host has no operation left: the end of a run (R206). -/
def runEnded (s : State) : Prop := s.pending = []

/-- A header construction has ended (R206). -/
def constructionEnded (s : State) : Prop := s.ctl = .done ∨ s.ctl = .error

/-! ### The testable properties of 43_header_format.md R166, items 1 to 5 -/

/-- Item 1: `parse_header` of the one stream the program of R162 delivers is its list of entries: the
symbols, each code length and each code word. So EOE sends every code word on unchanged (item 2). -/
def HeaderRoundTrip (es : List CodeEntry) (s : State) : Prop :=
  ∃ o f, buildHeader 1 es s = some o ∧ delivered s o = [f] ∧ parseHeader f = .ok es

/-- Item 2: no code word is a prefix of another (R161). -/
def PrefixFree (es : List CodeEntry) : Prop :=
  ∀ e ∈ es, ∀ e' ∈ es, e.2 <+: e'.2 → e = e'

/-- Item 3: the header of a text of the one symbol `a` is `omega(1) ++ fix7(a) ++ omega(1) ++ "0"`. -/
def SingleSymbolDelivery (a k : Nat) (s : State) : Prop :=
  codeWords (List.replicate k a) = [(a, [false])] ∧
    ∃ o, buildText 1 (List.replicate k a) s = .ok o ∧
      delivered s o = [[true] ++ fixed a 7 ++ [true] ++ [false]]

/-- Two states alike in all that is architectural but the stale bits of `BUF` (10_state.md R22, R25). -/
structure SameVisible (s t : State) : Prop where
  cfg : s.cfg = t.cfg
  ctl : s.ctl = t.ctl
  err : s.err = t.err
  blen : s.blen = t.blen
  lastlen : s.lastlen = t.lastlen
  stream : s.stream = t.stream

/-- Item 4: the same Host operations deliver the same streams from both states. -/
def SameDelivery (ops : List HostOp) (s s' : State) : Prop :=
  delivered s (issue ops s) = delivered s' (issue ops s')

/-- Item 5: `fix7 127` is accepted, `fix7 128` raises UNSUPPORTED_SYMBOL. -/
def AlphabetBoundary (s : State) : Prop :=
  (∃ t, exec (.fix7 127#32) s = .next t ∧ t.ctl = .opened ∧ t.stream = s.stream ++ List.replicate 7 true) ∧
    exec (.fix7 128#32) s = .next (raiseError .unsupportedSymbol s)

/-- R166 whole, for EOE with a Host that follows R162 to R164 and a capacity the header fits in. -/
structure HeaderProperties : Prop where
  roundTrip : ∀ (s : State) (es : List CodeEntry) (h : Bits), s.cfg.legal = true → es.length < 2 ^ 32 →
    (∀ e ∈ es, 1 ≤ e.2.length ∧ e.2.length < 2 ^ 32) → header es = some h →
    h.length ≤ s.cfg.bufCap → HeaderRoundTrip es s
  prefixFree : ∀ text : List Nat, PrefixFree (codeWords text)
  singleSymbol : ∀ (a k : Nat) (s : State), a < 128 → 1 ≤ k → s.cfg.legal = true →
    SingleSymbolDelivery a k s
  noHiddenInput : ∀ (ops : List HostOp) (s s' : State), SameVisible s s' → SameDelivery ops s s'
  determinism : ∀ (ops : List HostOp) (s s' : State), s.cfg = s'.cfg →
    SameDelivery (.cmd (encode .openC) :: ops) s s'
  boundary : ∀ s : State, s.ctl = .opened → BufForm s → s.blen + 7 ≤ s.cfg.bufCap → AlphabetBoundary s

end Sys2Proof
end

