-- ==== Sys2Proof/Certificates/Slice0/Obligations.lean ====
section
/-! DEFINITION. The statements for the provers. Each docstring names the rules of spec/ it formalises.
Nothing is proved here. -/

open Sys2Proof Sys2Proof.Machine

/-! ## Words the statements are written in -/

namespace Sys2Proof.Claims

/-- `legal(w)` of 30_encoding.md R74, by arithmetic on the word's number and not by the decoder's fields. -/
def LegalWord (w : CmdWord) : Prop :=
  let op := w.toNat / 2 ^ 60
  let len := w.toNat / 2 ^ 32 % 32 + 1
  (op ∈ [0x0, 0x1, 0x5, 0x6] ∧ w.toNat % 2 ^ 60 = 0) ∨
  (op ∈ [0x2, 0x3] ∧ w.toNat % 2 ^ 60 / 2 ^ 32 = 0) ∨
  (op = 0x4 ∧ w.toNat % 2 ^ 60 / 2 ^ 37 = 0 ∧ (len = 32 ∨ w.toNat % 2 ^ 32 / 2 ^ len = 0))

/-- The state `raise Error(c)` leaves (60_exceptions.md R181). -/
def errorState (c : ErrCode) (s : State) : State := { s with ctl := .error, err := c, blen := 0 }

/-- The fragment an append command adds (20_memory.md R51); none for the other commands and for an
operand error. -/
def fragment : Instr → Option Bits
  | .omega n => omega n.toNat
  | .fix7 v => fix7 v.toNat
  | .bits lm1 d => some (fixed (d.toNat % 2 ^ (lm1.toNat + 1)) (lm1.toNat + 1))
  | _ => none

/-- The command is OMEGA, FIX7 or BITS. -/
def isAppend : Instr → Bool
  | .omega _ => true
  | .fix7 _ => true
  | .bits _ _ => true
  | _ => false

/-- `t` is `s` after the fragment `f` was appended, and in nothing else different: the bits at
`BLEN .. BLEN + |f| - 1` are `f`, every other bit of BUF reads as before (20_memory.md R51). -/
structure Appended (s t : State) (f : Bits) : Prop where
  cfg : t.cfg = s.cfg
  ctl : t.ctl = s.ctl
  err : t.err = s.err
  blen : t.blen = s.blen + f.length
  lastlen : t.lastlen = f.length
  pending : t.pending = s.pending
  reads : t.reads = s.reads
  sinkLog : t.sinkLog = s.sinkLog
  buf : s.blen ≤ s.buf.length → ∀ k, t.buf[k]? =
    if s.blen ≤ k ∧ k < s.blen + f.length then f[k - s.blen]? else s.buf[k]?

/-- `exec` of the commands in turn. -/
def execAll : List Instr → State → Host.Outcome State Fault Refusal
  | [], s => .next s
  | i :: rest, s =>
    match exec i s with
    | .next t => execAll rest t
    | .fault r => .fault r
    | .refused r => .refused r

/-- The loop of 40_integer_codecs.md R101 without fuel: from `L` and `out` it ends with `result`. -/
inductive OmegaLoop : Nat → Bits → Bits → Prop where
  | stop (out : Bits) : OmegaLoop 0 out out
  | turn (L : Nat) (out result : Bits) (hL : 1 ≤ L) :
      OmegaLoop ((clear0 (bin L)).length - 1) (clear0 (bin L) ++ out) result → OmegaLoop L out result

/-- The prefix bits before `bin(n)` by `nbits(n)`, as 40_integer_codecs.md R103 lists them. -/
def prefixBits (b : Nat) : Bits :=
  if b = 1 then []
  else if b = 2 then [false]
  else if b = 3 then [false] ++ [false, false]
  else if b = 4 then [false] ++ [false, true]
  else if b ≤ 8 then [false] ++ [false, false] ++ clear0 (bin (b - 1))
  else if b ≤ 16 then [false] ++ [false, true] ++ clear0 (bin (b - 1))
  else [false] ++ [false, false] ++ [false, false, false] ++ clear0 (bin (b - 1))

/-- `|omega(n)|` by `nbits(n)`, the table of 40_integer_codecs.md R103. -/
def omegaLength (b : Nat) : Nat :=
  if b = 1 then 1
  else if b = 2 then 3
  else if b = 3 then 6
  else if b = 4 then 7
  else if b = 5 then 11
  else if b = 6 then 12
  else if b = 7 then 13
  else if b = 8 then 14
  else if b ≤ 16 then b + 7
  else b + 11

/-- The operand error of a command, and COMMIT's empty buffer (60_exceptions.md R182, order 3). -/
def operandError (s : State) : Instr → Option ErrCode
  | .omega n => if n = 0#32 then some .invalidArgument else none
  | .fix7 v => if 128 ≤ v.toNat then some .unsupportedSymbol else none
  | .commit => if s.blen = 0 then some .invalidInput else none
  | _ => none

/-- The command raises SEQUENCE outside OPEN (60_exceptions.md R180). -/
def needsOpen (i : Instr) : Bool := isAppend i || i == .commit

/-- The fragment does not fit (60_exceptions.md R180, OVERFLOW). -/
def tooLong (s : State) (i : Instr) : Bool :=
  match fragment i with
  | some f => decide (s.cfg.bufCap < s.blen + f.length)
  | none => false

/-- The rows of the table of 42_control.md R144. -/
inductive Row where
  | illegal | nop | openC | appendOk | omegaZero | fix7Big | noFit | commitFull | commitEmpty | abort
  deriving DecidableEq, Repr

/-- The row of R144 a word falls in, in a state. -/
def rowOf (s : State) : Decoded → Row
  | .illegal _ => .illegal
  | .legal .nop => .nop
  | .legal .openC => .openC
  | .legal (.omega n) =>
    if n = 0#32 then .omegaZero else if tooLong s (.omega n) then .noFit else .appendOk
  | .legal (.fix7 v) =>
    if 128 ≤ v.toNat then .fix7Big else if tooLong s (.fix7 v) then .noFit else .appendOk
  | .legal (.bits lm1 d) => if tooLong s (.bits lm1 d) then .noFit else .appendOk
  | .legal .commit => if s.blen = 0 then .commitEmpty else .commitFull
  | .legal .abort => .abort

/-- The table of R144: the next `STATE` and the code raised, if any. In the two cells that cannot occur
it says what the command's row says. -/
def cell : Row → Ctl → Ctl × Option ErrCode
  | .illegal, .error => (.error, none)
  | .illegal, _ => (.error, some .illegalCommand)
  | .nop, c => (c, none)
  | .openC, _ => (.opened, none)
  | .abort, _ => (.idle, none)
  | _, .error => (.error, none)
  | _, .idle => (.error, some .sequence)
  | _, .done => (.error, some .sequence)
  | .appendOk, .opened => (.opened, none)
  | .omegaZero, .opened => (.error, some .invalidArgument)
  | .fix7Big, .opened => (.error, some .unsupportedSymbol)
  | .noFit, .opened => (.error, some .overflow)
  | .commitFull, .opened => (.done, none)
  | .commitEmpty, .opened => (.error, some .invalidInput)

/-- The word is the command OPEN. -/
def isOpenOp : HostOp → Bool
  | .cmd w => decode w == .legal .openC
  | _ => false

/-- One BITS command for a chunk of 1 to 32 bits (30_encoding.md R77, `bits "s"`). -/
def bitsOf (c : Bits) : Instr := .bits (BitVec.ofNat 5 (c.length - 1)) (BitVec.ofNat 32 (val c))

/-- A command word of an opcode, `LM1` and `D`, as a number (30_encoding.md R70). -/
def wordOf (op lm1 d : Nat) : CmdWord := BitVec.ofNat 64 (op * 2 ^ 60 + lm1 * 2 ^ 32 + d)

/-- The header of the entries (43_header_format.md R160). -/
def headerBits (es : List CodeEntry) : Bits :=
  (omega es.length).getD [] ++
    es.flatMap fun e => fixed e.1 7 ++ (omega e.2.length).getD [] ++ e.2

/-- The commands of `cw "s"` (30_encoding.md R78). -/
def chunkCommands (s : Bits) : List Instr :=
  (List.range ((s.length + 31) / 32)).map fun i =>
    bitsOf ((s.drop (32 * i)).take (min (32 * i + 32) s.length - 32 * i))

/-- The Host's command sequence for the entries (43_header_format.md R162). -/
def headerSequence (es : List CodeEntry) : List Instr :=
  .openC :: .omega (BitVec.ofNat 32 es.length) ::
    (es.flatMap fun e =>
      .fix7 (BitVec.ofNat 32 e.1) :: .omega (BitVec.ofNat 32 e.2.length) :: chunkCommands e.2) ++ [.commit]

end Sys2Proof.Claims

open Sys2Proof.Claims

/-! ## Encoding -/

/-- R74: a word is legal exactly when the predicate holds, and every illegal word raises ILLEGAL_COMMAND
unless `STATE = ERROR`, in which case it is ignored. -/
def Obligations.LegalExactlyByPredicate : Prop :=
  ∀ w : CmdWord,
    (LegalWord w ↔ ∃ i, decode w = .legal i) ∧
    (LegalWord w ↔ legal w = true) ∧
    (¬LegalWord w → ∀ s : State,
      (s.ctl ≠ .error → runWord w s = .next (errorState .illegalCommand s)) ∧
      (s.ctl = .error → runWord w s = .next s))

/-- R75: reserved opcodes and non-zero reserved or unused bits are illegal; every word is one of the
seven commands, in its own encoding, or illegal. That a reserved opcode is the reason the decoder names,
before any other, is the model's choice (log entry 16). -/
def Obligations.ReservedWordsAreIllegal : Prop :=
  (∀ w : CmdWord, 0x7 ≤ (opField w).toNat → decode w = .illegal (.reservedOpcode (opField w))) ∧
  (∀ w : CmdWord, rsvField w ≠ 0#23 → ∃ why, decode w = .illegal why) ∧
  (∀ w : CmdWord, opField w ≠ 0x4#4 → lm1Field w ≠ 0#5 → ∃ why, decode w = .illegal why) ∧
  (∀ w : CmdWord, (opField w).toNat ∈ [0x0, 0x1, 0x5, 0x6] → dField w ≠ 0#32 →
    ∃ why, decode w = .illegal why) ∧
  (∀ w : CmdWord, opField w = 0x4#4 →
    (∃ k, (lm1Field w).toNat + 1 ≤ k ∧ (dField w).getLsbD k = true) → ∃ why, decode w = .illegal why) ∧
  (∀ w : CmdWord, (∃ i, decode w = .legal i ∧ encode i = w) ∨ ∃ why, decode w = .illegal why)

/-- R70, R71, R73: decoding the word of a well-formed instruction gives it back. -/
def Obligations.DecodeOfEncodeIsTheInstruction : Prop :=
  ∀ i : Instr, i.wellFormed = true → decode (encode i) = .legal i

/-- R75, R76: a legal word is the word of the one instruction it decodes to, and that instruction is
well-formed: no bit of a word is dropped. -/
def Obligations.EncodeOfDecodeIsTheWord : Prop :=
  ∀ (w : CmdWord) (i : Instr), decode w = .legal i → i.wellFormed = true ∧ encode i = w

/-- R73, R74, spec/opcode_table.json: a legal word matches one row of the table, the row of its command;
and a word that matches a row decodes to that row's command, BITS on its further condition. -/
def Obligations.DecodeFollowsTheOpcodeTable : Prop :=
  (∀ (w : CmdWord) (i : Instr), decode w = .legal i →
    (opcodeTable.filter (OpcodeRow.matches · w)).map OpcodeRow.mnemonic = [i.mnemonic]) ∧
  (∀ (w : CmdWord) (r : OpcodeRow), r ∈ opcodeTable → r.matches w = true → r.mnemonic ≠ "bits" →
    ∃ i, decode w = .legal i ∧ i.mnemonic = r.mnemonic) ∧
  (∀ (w : CmdWord) (r : OpcodeRow), r ∈ opcodeTable → r.matches w = true → r.mnemonic = "bits" →
    (decode w = .legal (.bits (lm1Field w) (dField w)) ↔
      (dField w).toNat < 2 ^ ((lm1Field w).toNat + 1)))

/-- R73: words written out from the encoding, one or more for every command (95_test_vectors.md). -/
def Obligations.SampleWordsDecode : Prop :=
  decode 0x0000000000000000#64 = .legal .nop ∧
  decode 0x1000000000000000#64 = .legal .openC ∧
  decode 0x20000000000003E8#64 = .legal (.omega 1000#32) ∧
  decode 0x3000000000000061#64 = .legal (.fix7 97#32) ∧
  decode 0x4000000600000061#64 = .legal (.bits 6#5 0x61#32) ∧
  decode 0x4000001F80000001#64 = .legal (.bits 31#5 0x80000001#32) ∧
  decode 0x5000000000000000#64 = .legal .commit ∧
  decode 0x6000000000000000#64 = .legal .abort

/-! ## The step -/

/-- R182, R5, R190: a step runs the decoded command on the state without that operation; an illegal word
raises or is ignored; with no operation left every piece of state is held. What Reset keeps outside EOE is
the model's reading (log entry 14). -/
def Obligations.StepRunsTheDecodedCommand : Prop :=
  ∀ s : State,
    (s.pending = [] → step s = .next s) ∧
    (∀ (w : CmdWord) (rest : List HostOp), s.pending = .cmd w :: rest →
      (∀ i, decode w = .legal i → step s = exec i { s with pending := rest }) ∧
      (∀ why, decode w = .illegal why → step s = .next
        (if s.ctl = .error then { s with pending := rest }
         else errorState .illegalCommand { s with pending := rest }))) ∧
    (∀ (w : Nat) (i : Instr), decode (BitVec.ofNat 64 w) = .legal i → w < 2 ^ 64 →
      step (s.withFetchWord 64 w) = exec i s) ∧
    (∀ rest : List HostOp, s.pending = .reset :: rest → ∃ t, step s = .next t ∧
      t.cfg = s.cfg ∧ t.sinkLog = s.sinkLog ∧ t.reads = s.reads ∧ t.pending = rest)

/-- R75, R182, R33: no word, read or reset stops EOE: every step of every state answers a next state. -/
def Obligations.EveryStepAnswersANextState : Prop := ∀ s : State, ∃ t, step s = .next t

/-- R60: the Host's operations take effect in the order issued, each one whole before the next, and a
read returns the state left by every operation before it and by none after it. -/
def Obligations.ReadSeesExactlyTheOperationsBeforeIt : Prop :=
  ∀ (s : State) (before after : List HostOp) (a : RegAddr),
    s.pending = before ++ .read a :: after →
    ∃ t, runSteps before.length { s with pending := before } = .next t ∧ t.pending = [] ∧
      runSteps (before.length + 1) s =
        .next { t with pending := after, reads := t.reads ++ [readReg t a] }

/-! ## Reset and invariants -/

/-- R37: what reset leaves, right after the first reset and at every Reset, at any parameters; the sink
port is idle and the Sink log gets no entry. BUF is unspecified: nothing is said of its bits. -/
def Obligations.ResetLeavesTheResetState : Prop :=
  (∀ c : Config, (State.resetOf c).ctl = .idle ∧ (State.resetOf c).err = .noError ∧
    (State.resetOf c).blen = 0 ∧ (State.resetOf c).lastlen = 0 ∧
    readReg (State.resetOf c) 0x0#4 = 0x00000000#32 ∧ readReg (State.resetOf c) 0x1#4 = 0#32 ∧
    readReg (State.resetOf c) 0x2#4 = 0#32 ∧
    readReg (State.resetOf c) 0x3#4 = BitVec.ofNat 32 c.bufCap) ∧
  (∀ (s : State) (rest : List HostOp), s.pending = .reset :: rest → ∃ t, step s = .next t ∧
    t.ctl = .idle ∧ t.err = .noError ∧ t.blen = 0 ∧ t.lastlen = 0 ∧
    readReg t 0x0#4 = 0x00000000#32 ∧ readReg t 0x1#4 = 0#32 ∧ readReg t 0x2#4 = 0#32 ∧
    readReg t 0x3#4 = BitVec.ofNat 32 s.cfg.bufCap ∧
    t.cfg = s.cfg ∧ t.sinkLog = s.sinkLog) ∧
  (∀ (p : PortState) (i : PortIn), (portReset p).work = .ready ∧ snkBeat (portReset p) i = none ∧
    (portReset p).core.sinkLog = p.core.sinkLog)

/-- R27 and the model's own invariants hold right after reset, at any parameters. -/
def Obligations.ResetMeetsTheInvariants : Prop :=
  ∀ c : Config, SpecInv (State.resetOf c) ∧ BufForm (State.resetOf c) ∧ LastLenInv (State.resetOf c) ∧
    DeliveredInv (State.resetOf c) ∧ PortInv (PortState.resetOf c)

/-- R27: the state always satisfies the spec's invariants: reset does, and every step keeps them. -/
def Obligations.SpecInvariantAlwaysHolds : Prop :=
  (∀ c : Config, SpecInv (State.resetOf c)) ∧
  ∀ s t : State, SpecInv s → step s = .next t → SpecInv t

/-- R22, R25, R51: every step keeps the form of the bit buffer (the model's own, log entry 2). -/
def Obligations.StepKeepsTheBufferForm : Prop :=
  ∀ s t : State, BufForm s → step s = .next t → BufForm t

/-- R26, R103: every step keeps LASTLEN at most 43 and, in OPEN and DONE, at most BLEN and 0 exactly
when nothing was appended. -/
def Obligations.StepKeepsTheLastLengthInvariant : Prop :=
  ∀ s t : State, LastLenInv s → step s = .next t → LastLenInv t

/-- R23, R25: every step keeps that in DONE the buffer holds the bitstream last delivered. -/
def Obligations.DoneHoldsTheDeliveredStream : Prop :=
  ∀ s t : State, DeliveredInv s → step s = .next t → DeliveredInv t

/-! ## Registers -/

/-- R29: the fields of STATUS, the reserved ones hardwired 0, the legal values, the reset value. -/
def Obligations.StatusRegisterLayout : Prop :=
  (∀ s : State,
    (readReg s 0x0#4).extractLsb' 0 2 = (match s.ctl with
      | .idle => 0#2 | .opened => 1#2 | .done => 2#2 | .error => 3#2) ∧
    (readReg s 0x0#4).extractLsb' 2 2 = 0#2 ∧
    (readReg s 0x0#4).extractLsb' 4 4 = (match s.err with
      | .noError => 0#4 | .illegalCommand => 1#4 | .sequence => 2#4 | .invalidArgument => 3#4
      | .unsupportedSymbol => 4#4 | .invalidInput => 5#4 | .overflow => 6#4) ∧
    (readReg s 0x0#4).extractLsb' 8 24 = 0#24) ∧
  (∀ c : Config, readReg (State.resetOf c) 0x0#4 = 0#32)

/-- R30 to R32: BLENR, LASTLENR and CAPR. -/
def Obligations.LengthAndCapacityRegisters : Prop :=
  (∀ s : State, s.cfg.legal = true → SpecInv s → LastLenInv s →
    (readReg s 0x1#4).toNat = s.blen ∧ s.blen ≤ s.cfg.bufCap ∧
    (readReg s 0x2#4).toNat = s.lastlen ∧ s.lastlen ≤ 43 ∧ (readReg s 0x2#4).extractLsb' 6 26 = 0#26 ∧
    (readReg s 0x3#4).toNat = s.cfg.bufCap) ∧
  (∀ c : Config, readReg (State.resetOf c) 0x1#4 = 0#32 ∧ readReg (State.resetOf c) 0x2#4 = 0#32) ∧
  (∀ s t : State, step s = .next t → readReg t 0x3#4 = readReg s 0x3#4)

/-- R33, R28, R34: a read returns the word for the state at that moment, 0 at the addresses 0x4 to 0xF,
and changes nothing; no address makes a read stop. -/
def Obligations.ReadReturnsTheWordAndChangesNothing : Prop :=
  ∀ (s : State) (a : RegAddr) (rest : List HostOp), s.pending = .read a :: rest → ∃ t,
    step s = .next t ∧ t = { s with pending := rest, reads := s.reads ++ [readReg s a] } ∧
    (∀ b : RegAddr, readReg t b = readReg s b) ∧
    (0x4 ≤ a.toNat → t.reads = s.reads ++ [0x00000000#32])

/-! ## Control commands -/

/-- R140: NOP runs in every state and changes nothing; a word with `OP = 0x0` and another bit set is not
a NOP and raises ILLEGAL_COMMAND. -/
def Obligations.NopChangesNothing : Prop :=
  decode (wordOf 0x0 0 0) = .legal .nop ∧
  (∀ s : State, exec .nop s = .next s) ∧
  (∀ (w : CmdWord) (s : State), w.toNat / 2 ^ 60 = 0x0 → w.toNat % 2 ^ 60 ≠ 0 → s.ctl ≠ .error →
    runWord w s = .next (errorState .illegalCommand s))

/-- R141: OPEN in every state; STATUS reads 1; an open construction is discarded without a Sink write. -/
def Obligations.OpenStartsAConstruction : Prop :=
  decode (wordOf 0x1 0 0) = .legal .openC ∧
  ∀ s : State, ∃ t, exec .openC s = .next t ∧
    t.ctl = .opened ∧ t.err = .noError ∧ t.blen = 0 ∧ t.lastlen = 0 ∧ readReg t 0x0#4 = 0x00000001#32 ∧
    t.cfg = s.cfg ∧ t.buf = s.buf ∧ t.pending = s.pending ∧ t.reads = s.reads ∧ t.sinkLog = s.sinkLog

/-- R143: ABORT in every state; ERR is kept; nothing goes to the Sink; in IDLE it changes nothing. -/
def Obligations.AbortDiscardsAndKeepsErr : Prop :=
  decode (wordOf 0x6 0 0) = .legal .abort ∧
  (∀ s : State, ∃ t, exec .abort s = .next t ∧
    t.ctl = .idle ∧ t.blen = 0 ∧ t.lastlen = 0 ∧ t.err = s.err ∧
    (readReg t 0x0#4).extractLsb' 0 2 = 0#2 ∧
    t.cfg = s.cfg ∧ t.buf = s.buf ∧ t.pending = s.pending ∧ t.reads = s.reads ∧ t.sinkLog = s.sinkLog) ∧
  (∀ s : State, SpecInv s → s.ctl = .idle → exec .abort s = .next s)

/-- R142: COMMIT delivers `BUF[0..BLEN)` once and keeps BLEN and LASTLEN; SEQUENCE in IDLE and DONE,
INVALID_INPUT with nothing appended, ignored in ERROR. -/
def Obligations.CommitDeliversTheStream : Prop :=
  decode (wordOf 0x5 0 0) = .legal .commit ∧
  ∀ s : State,
    (s.ctl = .opened → 1 ≤ s.blen → ∃ t, exec .commit s = .next t ∧
      t.sinkLog = s.sinkLog ++ [s.buf.take s.blen] ∧ t.ctl = .done ∧
      (readReg t 0x0#4).extractLsb' 0 2 = 2#2 ∧ t.blen = s.blen ∧ t.lastlen = s.lastlen ∧
      t.err = s.err ∧ t.buf = s.buf ∧ t.cfg = s.cfg ∧ t.pending = s.pending ∧ t.reads = s.reads) ∧
    (s.ctl = .opened → s.blen = 0 → exec .commit s = .next (errorState .invalidInput s)) ∧
    (s.ctl = .idle ∨ s.ctl = .done → exec .commit s = .next (errorState .sequence s)) ∧
    (s.ctl = .error → exec .commit s = .next s)

/-- R59: NOP, ABORT and OPEN give the same state when repeated; a second COMMIT after a successful one
is a SEQUENCE error and writes nothing; a repeated append that fits appends again. -/
def Obligations.RepeatedCommands : Prop :=
  (∀ (i : Instr) (s : State), i ∈ [Instr.nop, Instr.abort, Instr.openC] →
    execAll [i, i] s = exec i s) ∧
  (∀ s : State, s.ctl = .opened → 1 ≤ s.blen → ∃ t, execAll [.commit, .commit] s = .next t ∧
    t.ctl = .error ∧ t.err = .sequence ∧ t.sinkLog = s.sinkLog ++ [s.stream]) ∧
  (∀ (i : Instr) (s : State) (f : Bits), fragment i = some f → s.ctl = .opened →
    s.blen + 2 * f.length ≤ s.cfg.bufCap → s.blen ≤ s.buf.length →
    ∃ t, execAll [i, i] s = .next t ∧ t.stream = s.stream ++ f ++ f)

/-! ## Append commands -/

/-- R107: OMEGA in every state and for every operand: the encoding, the order of its errors, the
append, and the corner cases. -/
def Obligations.OmegaAppendsTheCode : Prop :=
  (∀ n : Operand, decode (wordOf 0x2 0 n.toNat) = .legal (.omega n)) ∧
  (∀ (n : Operand) (s : State),
    (s.ctl = .error → exec (.omega n) s = .next s) ∧
    (s.ctl = .idle ∨ s.ctl = .done → exec (.omega n) s = .next (errorState .sequence s)) ∧
    (s.ctl = .opened → n = 0#32 → exec (.omega n) s = .next (errorState .invalidArgument s)) ∧
    (s.ctl = .opened → n ≠ 0#32 → ∃ f, omega n.toNat = some f ∧
      (s.blen + f.length ≤ s.cfg.bufCap → ∃ t, exec (.omega n) s = .next t ∧ Appended s t f) ∧
      (s.cfg.bufCap < s.blen + f.length → exec (.omega n) s = .next (errorState .overflow s)))) ∧
  omega 1 = some [true] ∧ (omega (2 ^ 32 - 1)).map List.length = some 43 ∧
  omega 4 = some [false, false, false, true, false, false]

/-- R108: FIX7 in every state and for every operand: the encoding, the order of its errors, the append,
and the corner cases; the whole 32 bits are compared. -/
def Obligations.Fix7AppendsTheSymbol : Prop :=
  (∀ v : Operand, decode (wordOf 0x3 0 v.toNat) = .legal (.fix7 v)) ∧
  (∀ (v : Operand) (s : State),
    (s.ctl = .error → exec (.fix7 v) s = .next s) ∧
    (s.ctl = .idle ∨ s.ctl = .done → exec (.fix7 v) s = .next (errorState .sequence s)) ∧
    (s.ctl = .opened → 128 ≤ v.toNat → exec (.fix7 v) s = .next (errorState .unsupportedSymbol s)) ∧
    (s.ctl = .opened → v.toNat < 128 → s.blen + 7 ≤ s.cfg.bufCap →
      ∃ t f, exec (.fix7 v) s = .next t ∧ Appended s t f ∧ f.length = 7 ∧ val f = v.toNat) ∧
    (s.ctl = .opened → v.toNat < 128 → s.cfg.bufCap < s.blen + 7 →
      exec (.fix7 v) s = .next (errorState .overflow s))) ∧
  fix7 0 = some (List.replicate 7 false) ∧ fix7 127 = some (List.replicate 7 true) ∧
  fix7 97 = some [true, true, false, false, false, false, true]

/-- R130: BITS in every state and for every legal operand: the encoding, the order of its errors, and
the append of `D[len-1]` down to `D[0]`; it has no operand error. -/
def Obligations.BitsAppendsThePayload : Prop :=
  (∀ (lm1 : BitVec 5) (d : Operand), d.toNat < 2 ^ (lm1.toNat + 1) →
    decode (wordOf 0x4 lm1.toNat d.toNat) = .legal (.bits lm1 d)) ∧
  (∀ (lm1 : BitVec 5) (d : Operand), 2 ^ (lm1.toNat + 1) ≤ d.toNat →
    ∃ why, decode (wordOf 0x4 lm1.toNat d.toNat) = .illegal why) ∧
  (∀ (lm1 : BitVec 5) (d : Operand) (s : State),
    (s.ctl = .error → exec (.bits lm1 d) s = .next s) ∧
    (s.ctl = .idle ∨ s.ctl = .done → exec (.bits lm1 d) s = .next (errorState .sequence s)) ∧
    (s.ctl = .opened → s.blen + (lm1.toNat + 1) ≤ s.cfg.bufCap →
      ∃ t f, exec (.bits lm1 d) s = .next t ∧ Appended s t f ∧ f.length = lm1.toNat + 1 ∧
        ∀ j, j < lm1.toNat + 1 → f[j]? = some (d.getLsbD (lm1.toNat - j))) ∧
    (s.ctl = .opened → s.cfg.bufCap < s.blen + (lm1.toNat + 1) →
      exec (.bits lm1 d) s = .next (errorState .overflow s)))

/-- R51, R181 (frame): what OMEGA, FIX7 and BITS leave unchanged. The bits stored to are
`BLEN .. BLEN + |fragment| - 1`; where the command does not append, no bit of BUF changes. -/
def Obligations.AppendFrame : Prop :=
  ∀ (i : Instr) (s t : State), isAppend i = true → s.blen ≤ s.buf.length → exec i s = .next t →
    t.cfg = s.cfg ∧ t.pending = s.pending ∧ t.reads = s.reads ∧ t.sinkLog = s.sinkLog ∧
    (t.ctl = .opened → t.err = s.err ∧ ∃ f, fragment i = some f ∧
      ∀ k, k < s.blen ∨ s.blen + f.length ≤ k → t.buf[k]? = s.buf[k]?) ∧
    (t.ctl ≠ .opened → t.buf = s.buf ∧ t.lastlen = s.lastlen)

/-- R140 to R143 (frame): what NOP, OPEN, COMMIT and ABORT leave unchanged. None of them writes a bit of
BUF; only a COMMIT that delivers changes the Sink log. -/
def Obligations.ControlFrame : Prop :=
  ∀ (i : Instr) (s t : State), isAppend i = false → exec i s = .next t →
    t.cfg = s.cfg ∧ t.buf = s.buf ∧ t.pending = s.pending ∧ t.reads = s.reads ∧
    (t.sinkLog ≠ s.sinkLog → i = .commit ∧ s.ctl = .opened ∧ t.ctl = .done) ∧
    (i = .nop ∨ i = .abort → t.err = s.err) ∧
    (i = .nop ∨ i = .commit → t.lastlen = s.lastlen) ∧
    (i = .nop → t.ctl = s.ctl ∧ t.blen = s.blen)

/-! ## Codecs -/

/-- R101: `omega(n)` is what the loop ends with, for every `n >= 1`; `omega(0)` is no value. -/
def Obligations.OmegaFollowsTheLoop : Prop :=
  omega 0 = none ∧
  ∀ n, 1 ≤ n → ∃ f, omega n = some f ∧ OmegaLoop ((bin n).length - 1) (bin n) f

/-- R102: the groups of `omega(n)`: `Ls` is `L_1, ..., L_k`. -/
def Obligations.OmegaGroupStructure : Prop :=
  ∀ n, 1 ≤ n → ∃ Ls : List Nat,
    omega n = some ((Ls.reverse.map fun L => clear0 (bin L)).flatten ++ bin n) ∧
    (∀ (i L : Nat), Ls[i]? = some L → ∃ m : Nat, (n :: Ls)[i]? = some m ∧ L = nbits m - 1 ∧ (bin m).length = L + 1) ∧
    (∀ L ∈ Ls, 1 ≤ L ∧ (clear0 (bin L)).head? = some false ∧ (clear0 (bin L)).length = (bin L).length) ∧
    (∃ m : Nat, (n :: Ls).getLast? = some m ∧ nbits m - 1 = 0) ∧
    (bin n).head? = some true ∧ (Ls = [] ↔ n = 1) ∧
    (Ls = [] → bin n = [true]) ∧ (Ls ≠ [] → Ls.getLast? = some 1 ∧ clear0 (bin 1) = [false])

/-- R103: the length of `omega(n)` and its prefix bits, by `nbits(n)`, for every `n` below 2^32. -/
def Obligations.OmegaLengthTable : Prop :=
  (∃ P : Nat → Nat, P 0 = 0 ∧ (∀ L, 1 ≤ L → P L = nbits L + P (nbits L - 1)) ∧
    ∀ n f, 1 ≤ n → omega n = some f → f.length = nbits n + P (nbits n - 1)) ∧
  (∀ n f, 1 ≤ n → n < 2 ^ 32 → omega n = some f →
    f.length = omegaLength (nbits n) ∧ f = prefixBits (nbits n) ++ bin n ∧
    2 ^ (nbits n - 1) ≤ n ∧ n < 2 ^ nbits n ∧ f.length ≤ 43 ∧ (f.length = 43 ↔ 2 ^ 31 ≤ n))

/-- R104: the code is inverted by the reference decoder whatever follows, so it is self-delimiting; it
is prefix-free and injective. -/
def Obligations.OmegaIsInvertedAndPrefixFree : Prop :=
  (∀ n f t, 1 ≤ n → omega n = some f → omegaDecode (f ++ t) 0 = .ok (n, f.length)) ∧
  (∀ m n f g, omega m = some f → omega n = some g → f <+: g → f = g) ∧
  (∀ m n f, omega m = some f → omega n = some f → m = n)

/-- R109: the known values. -/
def Obligations.OmegaKnownValues : Prop :=
  omega 1 = some [true] ∧ omega 2 = some [false, true, false] ∧ omega 3 = some [false, true, true] ∧
  omega 4 = some [false, false, false, true, false, false] ∧
  omega 7 = some [false, false, false, true, true, true] ∧
  omega 255 = some ([false, false, false, false] ++ List.replicate 10 true)

/-- R106, R53: the 7-bit field, most significant bit first; undefined for 128 and above. -/
def Obligations.Fix7FieldBits : Prop :=
  (∀ v, v < 128 → ∃ f, fix7 v = some f ∧ f.length = 7 ∧ val f = v ∧
    ∀ j, j < 7 → f[j]? = some (v.testBit (6 - j))) ∧
  (∀ v, 128 ≤ v → fix7 v = none)

/-! ## The stream -/

/-- R132: after an OPEN and successful appends, the stream is the concatenation of the fragments, and
COMMIT gives the Sink exactly that. -/
def Obligations.StreamIsTheConcatenation : Prop :=
  ∀ (s : State) (is : List Instr) (fs : List Bits), is.map fragment = fs.map some →
    fs.flatten.length ≤ s.cfg.bufCap →
    ∃ t, execAll (.openC :: is) s = .next t ∧ t.ctl = .opened ∧ t.err = .noError ∧
      t.stream = fs.flatten ∧ t.blen = (fs.map List.length).sum ∧
      (fs.flatten ≠ [] → ∃ u, exec .commit t = .next u ∧ u.sinkLog = s.sinkLog ++ [fs.flatten])

/-- R131: appending a string in consecutive BITS chunks leaves the stream one append would leave, but
for LASTLEN; where it does not fit, the construction fails as the one long append would. -/
def Obligations.ChunkedAppendIsOneAppend : Prop :=
  ∀ (s : State) (cs : List Bits) (last : Bits), s.ctl = .opened → s.blen ≤ s.buf.length →
    (∀ c ∈ cs ++ [last], 1 ≤ c.length ∧ c.length ≤ 32) →
    ∃ t, execAll ((cs ++ [last]).map bitsOf) s = .next t ∧ t.sinkLog = s.sinkLog ∧
      (s.blen + (cs ++ [last]).flatten.length ≤ s.cfg.bufCap →
        t.ctl = .opened ∧ t.stream = s.stream ++ (cs ++ [last]).flatten ∧
        t.blen = s.blen + (cs ++ [last]).flatten.length ∧ t.lastlen = last.length ∧
        t = { bufAppend (cs ++ [last]).flatten s with lastlen := last.length }) ∧
      (s.cfg.bufCap < s.blen + (cs ++ [last]).flatten.length →
        t.ctl = .error ∧ t.err = .overflow ∧ t.blen = 0 ∧
        bufAppend (cs ++ [last]).flatten s = errorState .overflow s)

/-- R78: the expansions of `cw`, `entry` and `word`, chunk by chunk. -/
def Obligations.PseudoInstructionExpansions : Prop :=
  (∀ s : Bits, 1 ≤ s.length → assemble (.cw s) = some ((chunkCommands s).map encode)) ∧
  (∀ s : Bits, 1 ≤ s.length → ∀ i ∈ chunkCommands s, i.wellFormed = true) ∧
  (∀ (sym : Nat) (s : Bits) (ws : List CmdWord), sym < 2 ^ 32 → s.length < 2 ^ 32 →
    assemble (.cw s) = some ws →
    assemble (.entry sym s) = some (wordOf 0x3 0 sym :: wordOf 0x2 0 s.length :: ws)) ∧
  (∀ w, w < 2 ^ 64 → assemble (.word w) = some [BitVec.ofNat 64 w])

/-- R77: the word of each assembler form, and what the assembler refuses. -/
def Obligations.AssemblerWords : Prop :=
  assemble .nop = some [wordOf 0x0 0 0] ∧ assemble .openC = some [wordOf 0x1 0 0] ∧
  assemble .commit = some [wordOf 0x5 0 0] ∧ assemble .abort = some [wordOf 0x6 0 0] ∧
  (∀ n, assemble (.omega n) = if n < 2 ^ 32 then some [wordOf 0x2 0 n] else none) ∧
  (∀ v, assemble (.fix7 v) = if v < 2 ^ 32 then some [wordOf 0x3 0 v] else none) ∧
  (∀ len p, assemble (.bits len p) =
    if 1 ≤ len ∧ len ≤ 32 ∧ p < 2 ^ len then some [wordOf 0x4 (len - 1) p] else none) ∧
  (∀ s : Bits, assemble (.bitsStr s) =
    if 1 ≤ s.length ∧ s.length ≤ 32 then some [wordOf 0x4 (s.length - 1) (val s)] else none)

/-- R77: the text the disassembler prints for a legal word assembles to that word, and for an illegal
word it is `.illegal 0x` and 16 digits. Letter case and blanks are the model's choice (log entry 18). -/
def Obligations.DisassemblyAssemblesBack : Prop :=
  (∀ w : CmdWord, legal w = true → assembleText (disassemble w) = some [w]) ∧
  (∀ w : CmdWord, legal w = false → ∃ ds : List Char, disassemble w = ".illegal 0x".toList ++ ds ∧
    ds.length = 16 ∧ digitsValue 16 0 ds = some w.toNat)

/-! ## Errors -/

/-- R181: a command that raises an error changes STATE, ERR and BLEN and nothing else, and its code is
one of 1 to 6. -/
def Obligations.ErrorEntryChangesNothingElse : Prop :=
  ∀ (w : CmdWord) (s t : State), s.ctl ≠ .error → runWord w s = .next t → t.ctl = .error →
    ∃ c, t = errorState c s ∧ 1 ≤ (errCode c).toNat ∧ (errCode c).toNat ≤ 6

/-- R182: a command reports the first error that applies, in the order ILLEGAL_COMMAND, SEQUENCE, operand
error, OVERFLOW, and none if none applies; in ERROR only legal NOP, OPEN and ABORT run. -/
def Obligations.FirstErrorThatAppliesIsReported : Prop :=
  ∀ (w : CmdWord) (s : State),
    (∀ i, decode w = .legal i → runWord w s = exec i s) ∧
    (s.ctl = .error → ¬LegalWord w → runWord w s = .next s) ∧
    (s.ctl = .error → ∀ i, decode w = .legal i → i ∉ [Instr.nop, Instr.openC, Instr.abort] →
      runWord w s = .next s) ∧
    (s.ctl = .error → ∀ i, decode w = .legal i → i ∈ [Instr.openC, Instr.abort] →
      ∃ t, runWord w s = .next t ∧ t.ctl ≠ .error) ∧
    (s.ctl ≠ .error → ¬LegalWord w → runWord w s = .next (errorState .illegalCommand s)) ∧
    (s.ctl ≠ .error → ∀ i, decode w = .legal i →
      (needsOpen i = true → s.ctl ≠ .opened → runWord w s = .next (errorState .sequence s)) ∧
      (needsOpen i = true → s.ctl = .opened → ∀ c, operandError s i = some c →
        runWord w s = .next (errorState c s)) ∧
      (needsOpen i = true → s.ctl = .opened → operandError s i = none → tooLong s i = true →
        runWord w s = .next (errorState .overflow s)) ∧
      (needsOpen i = true → s.ctl = .opened → operandError s i = none → tooLong s i = false →
        ∃ t, runWord w s = .next t ∧ t.ctl ≠ .error) ∧
      (needsOpen i = false → ∃ t, runWord w s = .next t ∧ t.ctl ≠ .error))

/-- R183: in ERROR, every word but a legal NOP, OPEN or ABORT is ignored: nothing changes. -/
def Obligations.ErrorStateIsSticky : Prop :=
  ∀ (w : CmdWord) (s : State), s.ctl = .error →
    (decode w ∉ [Decoded.legal .nop, Decoded.legal .openC, Decoded.legal .abort] →
      runWord w s = .next s) ∧
    (decode w = .legal .openC → ∃ t, runWord w s = .next t ∧ t.ctl = .opened) ∧
    (decode w = .legal .abort → ∃ t, runWord w s = .next t ∧ t.ctl = .idle) ∧
    (decode w = .legal .nop → runWord w s = .next s)

/-- R184: ERROR is left only by OPEN, ABORT and reset, each to its state and with its effect on ERR. -/
def Obligations.ErrorIsLeftOnlyByOpenAbortReset : Prop :=
  ∀ s t : State, s.ctl = .error → step s = .next t → t.ctl ≠ .error →
    (∃ w rest, s.pending = .cmd w :: rest ∧ decode w = .legal .openC ∧ t.ctl = .opened ∧
      t.err = .noError ∧ t.blen = 0 ∧ t.lastlen = 0) ∨
    (∃ w rest, s.pending = .cmd w :: rest ∧ decode w = .legal .abort ∧ t.ctl = .idle ∧ t.err = s.err) ∨
    (∃ rest, s.pending = .reset :: rest ∧ t.ctl = .idle ∧ t.err = .noError)

/-- R24, R185: ERR changes only by OPEN and reset, which clear it, and by an error that enters ERROR. -/
def Obligations.ErrChangesOnlyAsTheRulesSay : Prop :=
  ∀ s t : State, step s = .next t → t.err ≠ s.err →
    (t.err = .noError ∧ ((∃ rest, s.pending = .reset :: rest) ∨
      ∃ w rest, s.pending = .cmd w :: rest ∧ decode w = .legal .openC)) ∨
    (t.err ≠ .noError ∧ s.ctl ≠ .error ∧ t.ctl = .error ∧ ∃ w rest, s.pending = .cmd w :: rest)

/-- R144: the whole state machine, cell by cell: the next STATE and the code raised; and the two cells
that cannot occur do not, in a state that meets R27. -/
def Obligations.TransitionTable : Prop :=
  (∀ (w : CmdWord) (s : State), ∃ t, runWord w s = .next t ∧
    t.ctl = (cell (rowOf s (decode w)) s.ctl).1 ∧
    (∀ c, (cell (rowOf s (decode w)) s.ctl).2 = some c → t = errorState c s) ∧
    ((cell (rowOf s (decode w)) s.ctl).2 = none →
      t.err = if decode w = .legal .openC then .noError else s.err)) ∧
  (∀ s : State, SpecInv s → s.ctl = .idle → rowOf s (.legal .commit) = .commitEmpty) ∧
  (∀ s : State, SpecInv s → s.ctl = .done → rowOf s (.legal .commit) = .commitFull)

/-! ## The Sink -/

/-- R57: one step adds at most one entry to the Sink log, and only a COMMIT in OPEN with something
appended does: the stream, whole. -/
def Obligations.OnlyCommitWritesTheSink : Prop :=
  ∀ s t : State, step s = .next t → t.sinkLog = s.sinkLog ∨
    (∃ w rest, s.pending = .cmd w :: rest ∧ decode w = .legal .commit ∧ s.ctl = .opened ∧ 1 ≤ s.blen ∧
      t.sinkLog = s.sinkLog ++ [s.stream] ∧ t.ctl = .done)

/-- R142, R57: exactly once per construction: outside OPEN, whatever the Host does short of an OPEN, the
Sink log does not change. -/
def Obligations.NoSecondWriteWithoutOpen : Prop :=
  ∀ (s t : State) (k : Nat), s.ctl ≠ .opened → (∀ op ∈ s.pending.take k, isOpenOp op = false) →
    runSteps k s = .next t → t.sinkLog = s.sinkLog ∧ t.ctl ≠ .opened

/-- R25, R36, R166: stale bits of BUF never show: two states that differ only in them give the same
observation, and still differ only in them after any step. -/
def Obligations.StaleBitsNeverShow : Prop :=
  ∀ s s' t : State, SameButStale s s' → step s = .next t →
    observe s = observe s' ∧ (∀ a, readReg s a = readReg s' a) ∧
    ∃ t', step s' = .next t' ∧ SameButStale t t'

/-- R55: the beats of a transaction, bit by bit. -/
def Obligations.BeatsPackTheStream : Prop :=
  (∀ s : Bits, 1 ≤ s.length → (beats s).length = (s.length + 7) / 8 ∧
    ∀ k, k < (s.length + 7) / 8 → ∃ b, (beats s)[k]? = some b ∧
      (∀ j, j < 8 → b.data.getLsbD (7 - j) = if 8 * k + j < s.length then s[8 * k + j]?.getD false else false) ∧
      b.nbits.toNat = min 8 (s.length - 8 * k) ∧ 1 ≤ b.nbits.toNat ∧
      (b.first = true ↔ k = 0) ∧ (b.last = true ↔ k = (s.length + 7) / 8 - 1) ∧
      (s.length < 2 ^ 32 → b.bitlen.toNat = s.length)) ∧
  pack [true, true, true, false, false, false, false, true, true, false] = [0xE1#8, 0x80#8] ∧
  (beats [true, true, true, false, false, false, false, true, true, false]).map Beat.nbits = [8#4, 2#4]

/-- R55, R56: the beats carry the stream and nothing else: the Sink gets it back whole. -/
def Obligations.UnpackRecoversTheStream : Prop := ∀ s : Bits, unpack (beats s) = s

/-! ## The header -/

/-- R162: the Host's sequence gives the Sink exactly the header, and BLENR reads its length; where it
does not fit, the sequence ends in ERROR with OVERFLOW and nothing is delivered; and one `Read(0x0)` after
the commands shows DONE or ERROR, which ends the Host's poll. R162 has the success half alone: the OVERFLOW
half follows from R51, R181 and R183, "one read" from R60, and that a Host allows itself a number of reads
is the model's choice (log entry 22). -/
def Obligations.HostSequenceDeliversTheHeader : Prop :=
  ∀ (s : State) (es : List CodeEntry), s.cfg.legal = true →
    1 ≤ es.length → es.length < 2 ^ 32 →
    (∀ e ∈ es, e.1 < 128 ∧ 1 ≤ e.2.length ∧ e.2.length < 2 ^ 32) →
    header es = some (headerBits es) ∧ headerCommands es = some (headerSequence es) ∧
    ∃ t : State, runSteps (headerSequence es).length
        { s with pending := (headerSequence es).map fun i => .cmd (encode i) } = .next t ∧
      t.pending = [] ∧
      ((headerBits es).length ≤ s.cfg.bufCap → t.ctl = .done ∧
        t.sinkLog = s.sinkLog ++ [headerBits es] ∧ (readReg t 0x1#4).toNat = (headerBits es).length ∧
        readReg t 0x0#4 = 0x00000002#32) ∧
      (s.cfg.bufCap < (headerBits es).length →
        t.ctl = .error ∧ t.err = .overflow ∧ t.sinkLog = s.sinkLog ∧ readReg t 0x0#4 = 0x00000063#32) ∧
      t.reads = s.reads ∧
      ∀ polls : Nat, buildHeader (polls + 1) es s =
        some (.next { t with reads := s.reads ++ [readReg t 0x0#4] })

/-- R165: the reference parser gives a header's entries back; it fails on a header cut short and on a
header with bits after it. -/
def Obligations.ParseHeaderInvertsHeader : Prop :=
  ∀ (es : List CodeEntry) (h : Bits), header es = some h →
    parseHeader h = .ok es ∧
    (∀ t : Bits, t ≠ [] → parseHeader (h ++ t) = .error .trailingBits) ∧
    (∀ p : Bits, p <+: h → p ≠ h → parseHeader p = .error .truncated)

/-- R161, R164 (Host side): the code words of a text cover exactly its symbols below 128, ascending, are
not empty, and no one is a prefix of another. -/
def Obligations.CodeWordsFormAPrefixCode : Prop :=
  ∀ text : List Nat,
    (codeWords text).map Prod.fst = (List.range 128).filter (fun s => decide (s ∈ text)) ∧
    (∀ e ∈ codeWords text, e.2 ≠ []) ∧
    (∀ e ∈ codeWords text, ∀ e' ∈ codeWords text, e.2 <+: e'.2 → e = e')

/-- R166 item 3: a text of one distinct symbol gets the code word "0" and the header the source gives. -/
def Obligations.SingleSymbolHeader : Prop :=
  ∀ (a k : Nat), a < 128 → 1 ≤ k →
    codeWords (List.replicate k a) = [(a, [false])] ∧
    ∃ f, fix7 a = some f ∧ header [(a, [false])] = some ([true] ++ f ++ [true] ++ [false])

/-! ## The pins -/

/-- R5, R60, R67 to R69, R201: the pins refine the atomic machine: along any run of clock edges the core
is where the atomic machine is after the Host operations that took effect, in their order. -/
def Obligations.PinsRefineTheAtomicMachine : Prop :=
  ∀ (p q : PortState) (ins : List (PortIn × PortDraw)), PortInv p → portRun p ins = .next q →
    PortInv q ∧
    runSteps (runOps p ins).length { p.core with pending := runOps p ins } =
      .next { q.core with pending := [] }

/-- R69, R36: every clock edge keeps what holds between edges: a delivery in progress has given the
Sink exactly the beats before the offered one. -/
def Obligations.ClockEdgeKeepsThePinInvariant : Prop :=
  ∀ (p q : PortState) (i : PortIn) (d : PortDraw), PortInv p → clockEdge p i d = .next q → PortInv q

/-- R67, R204: the command handshake; a Host that withdraws or changes what it offers is refused. That
`cmd_ready` is 1 whenever it may be, and that a reset edge ends the duty to hold, are the model's readings
(log entries 8 and 11). -/
def Obligations.CommandHandshake : Prop :=
  ∀ (p : PortState) (i : PortIn) (d : PortDraw),
    (cmdReady p i = true ↔ i.rst = false ∧ p.work = .ready) ∧
    (∀ q, clockEdge p i d = .next q → i.rst = false → i.cmdValid = true → cmdReady p i = true →
      q.work = .running i.cmdData ∧ q.offered = none) ∧
    (∀ q, clockEdge p i d = .next q → i.rst = false → i.cmdValid = true → cmdReady p i = false →
      q.offered = some i.cmdData) ∧
    (∀ q w, clockEdge p i d = .next q → i.rst = false → p.work = .running w →
      q.work = .running w ∨ (d.finish = true ∧ q.work = .ready ∧ delivers w p.core = false) ∨
        (d.finish = true ∧ q.work = .sending w 0 ∧ delivers w p.core = true ∧ q.core = p.core)) ∧
    (∀ w, i.rst = false → p.offered = some w → ¬(i.cmdValid = true ∧ i.cmdData = w) →
      clockEdge p i d = .refused .hostBrokeHold) ∧
    (∀ q, clockEdge p i d = .next q → i.rst = true → q.offered = none ∧ q.asked = none)

/-- R68, R187: the read handshake: an acknowledge comes only with no command in progress and `rst = 0`,
the word is that of the state before a command transferred in the same cycle, and a request that is
not acknowledged must be held. -/
def Obligations.ReadHandshake : Prop :=
  ∀ (p : PortState) (i : PortIn) (d : PortDraw),
    (∀ v, regAck p i d = some v →
      i.rst = false ∧ p.work = .ready ∧ i.regReq = true ∧ v = readReg p.core i.regAddr) ∧
    (∀ q v, clockEdge p i d = .next q → regAck p i d = some v →
      q.core = { p.core with reads := p.core.reads ++ [v] } ∧ q.asked = none ∧
      (i.cmdValid = true → q.work = .running i.cmdData)) ∧
    (∀ q, clockEdge p i d = .next q → i.rst = false → regAck p i d = none → i.regReq = true →
      q.asked = some i.regAddr) ∧
    (∀ a, i.rst = false → p.asked = some a → ¬(i.regReq = true ∧ i.regAddr = a) →
      clockEdge p i d = .refused .hostBrokeHold)

/-- R69: a beat is offered only while a COMMIT is in progress, is held until it transfers, and the beats
of a COMMIT are those of its stream in order; with the last one the COMMIT completes. That it completes at
that edge, and that the next beat is offered in the next cycle, are the model's readings (log entry 10). -/
def Obligations.SinkHandshake : Prop :=
  ∀ (p q : PortState) (i : PortIn) (d : PortDraw), PortInv p → i.rst = false →
    clockEdge p i d = .next q →
    (∀ b, snkBeat p i = some b → ∃ w k, p.work = .sending w k ∧ decode w = .legal .commit ∧
      (beats p.core.stream)[k]? = some b) ∧
    (∀ b, snkBeat p i = some b → i.snkReady = false →
      q.work = p.work ∧ q.core = p.core ∧ ∀ i' : PortIn, i'.rst = false → snkBeat q i' = some b) ∧
    (∀ b w k, snkBeat p i = some b → i.snkReady = true → p.work = .sending w k → b.last = false →
      q.work = .sending w (k + 1) ∧ q.core = p.core) ∧
    (∀ b, snkBeat p i = some b → i.snkReady = true → b.last = true →
      q.work = .ready ∧ q.core.ctl = .done ∧ q.core.sinkLog = p.core.sinkLog ++ [p.core.stream])

/-- R200, R201: a reset edge sets the reset state whatever is in progress; the command in progress has no
effect, a delivery cut short leaves no Sink log entry, and while `rst = 1` nothing transfers. That the
edge ends the Host's duty to hold (log entry 11), that the Sink has discarded the beats it had (log entry
12, the Sink's duty) and that the values read and the later operations stay (log entry 14) are the model's
readings. -/
def Obligations.ResetAtThePins : Prop :=
  ∀ (p : PortState) (i : PortIn) (d : PortDraw), i.rst = true →
    cmdReady p i = false ∧ regAck p i d = none ∧ snkBeat p i = none ∧
    ∃ q, clockEdge p i d = .next q ∧ q.core = applyReset p.core ∧ q.core.sinkLog = p.core.sinkLog ∧
      q.core.ctl = .idle ∧ q.core.err = .noError ∧ q.core.blen = 0 ∧ q.core.lastlen = 0 ∧
      q.work = .ready ∧ q.received = [] ∧
      ∀ i' : PortIn, i'.rst = false → cmdReady q i' = true
end

