-- ==== Sys2Proof/Laws/Codec.lean ====
section
/-! SUPPORT. Laws of the bit-string notation (00_scope.md R8, R9) and the recursion of the codecs
(40_integer_codecs.md R101), so that no later proof unfolds their loops. -/

namespace Sys2Proof.Machine

/-! ### Lengths -/

@[simp] theorem length_clear0 (s : Bits) : (clear0 s).length = s.length := by cases s <;> rfl

@[simp] theorem length_set0 (s : Bits) : (set0 s).length = s.length := by cases s <;> rfl

@[simp] theorem length_fixed (n w : Nat) : (fixed n w).length = w := by
  induction w with
  | zero => rfl
  | succ w ih => simp [fixed, ih]

@[simp] theorem length_bin (n : Nat) : (bin n).length = nbits n := length_fixed n (nbits n)

theorem length_slice (s : Bits) (i j : Nat) (h : j ≤ s.length) : (slice s i j).length = j - i := by
  simp [slice]; omega

/-! ### `clear0` and `set0` -/

@[simp] theorem set0_clear0_cons (t : Bits) (b : Bool) : set0 (clear0 (b :: t)) = true :: t := rfl

/-! ### `val` and `fixed` -/

theorem foldl_val (s : Bits) (a : Nat) :
    s.foldl (fun v b => 2 * v + b.toNat) a = a * 2 ^ s.length + val s := by
  induction s generalizing a with
  | nil => simp [val]
  | cons b s ih =>
    simp only [List.foldl_cons, List.length_cons, val, Nat.mul_zero, Nat.zero_add]
    rw [ih, ih b.toNat, Nat.pow_succ]
    ring

@[simp] theorem val_nil : val [] = 0 := rfl

theorem val_cons (b : Bool) (s : Bits) : val (b :: s) = b.toNat * 2 ^ s.length + val s := by
  simpa [val] using foldl_val s b.toNat

theorem val_append (s t : Bits) : val (s ++ t) = val s * 2 ^ t.length + val t := by
  simp only [val, List.foldl_append]
  exact foldl_val t _

theorem val_lt (s : Bits) : val s < 2 ^ s.length := by
  induction s with
  | nil => simp
  | cons b s ih =>
    have hb : b.toNat ≤ 1 := Bool.toNat_le b
    rw [val_cons, List.length_cons, Nat.pow_succ]
    nlinarith [Nat.mul_le_mul_right (2 ^ s.length) hb]

theorem fixed_mod (n w : Nat) : val (fixed n w) = n % 2 ^ w := by
  induction w with
  | zero => simp [fixed, Nat.mod_one]
  | succ w ih =>
    rw [fixed, val_cons, ih, length_fixed, Nat.mod_pow_succ, Nat.toNat_testBit]
    ring

theorem val_fixed {n w : Nat} (h : n < 2 ^ w) : val (fixed n w) = n := by
  rw [fixed_mod, Nat.mod_eq_of_lt h]

/-! ### `nbits` and `bin` -/

theorem nbits_pos {n : Nat} (h : 1 ≤ n) : nbits n = n.log2 + 1 := by
  simp [nbits, Nat.ne_of_gt h]

theorem lt_two_pow_nbits (n : Nat) : n < 2 ^ nbits n := by
  by_cases h : n = 0
  · simp [h]
  · simpa [nbits, h] using Nat.lt_log2_self

theorem two_pow_le_of_pos {n : Nat} (h : 1 ≤ n) : 2 ^ (nbits n - 1) ≤ n := by
  simpa [nbits_pos h] using Nat.log2_self_le (Nat.ne_of_gt h)

theorem one_le_nbits {n : Nat} (h : 1 ≤ n) : 1 ≤ nbits n := by simp [nbits_pos h]

/-- The bit length of a positive number exceeds the bit length less one of none above it: the loop of
R101 goes down. -/
theorem nbits_sub_one_lt {n : Nat} (h : 1 ≤ n) : nbits n - 1 < n := by
  have := two_pow_le_of_pos h
  exact lt_of_lt_of_le Nat.lt_two_pow_self this

theorem val_bin (n : Nat) : val (bin n) = n := val_fixed (lt_two_pow_nbits n)

/-- The first bit of `bin(n)` is 1 (R9). -/
theorem bin_eq_cons {n : Nat} (h : 1 ≤ n) : bin n = true :: fixed n (nbits n - 1) := by
  have hn : nbits n = nbits n - 1 + 1 := by have := one_le_nbits h; omega
  have ht : n.testBit (nbits n - 1) = true := by
    rw [Nat.testBit_eq_decide_div_mod_eq]
    have h1 := two_pow_le_of_pos h
    have h2 := lt_two_pow_nbits n
    rw [hn, Nat.pow_succ, Nat.mul_comm] at h2
    have : n / 2 ^ (nbits n - 1) = 1 := by
      apply Nat.div_eq_of_lt_le <;> simp only [Nat.add_one_mul] <;> omega
    simp [this]
  conv => lhs; rw [bin, hn, fixed, ht]

/-! ### The loop of R101 -/

theorem omegaLoop_append (f L : Nat) (out : Bits) : omegaLoop f L out = omegaLoop f L [] ++ out := by
  induction f generalizing L out with
  | zero => rfl
  | succ f ih =>
    simp only [omegaLoop]
    split
    · rw [ih, ih _ (clear0 (bin L) ++ [])]
      simp
    · simp

theorem omegaLoop_fuel (f g L : Nat) (out : Bits) (hf : L ≤ f) (hg : L ≤ g) :
    omegaLoop f L out = omegaLoop g L out := by
  induction f generalizing g L out with
  | zero =>
    obtain rfl : L = 0 := by omega
    cases g <;> simp [omegaLoop]
  | succ f ih =>
    cases g with
    | zero =>
      obtain rfl : L = 0 := by omega
      simp [omegaLoop]
    | succ g =>
      simp only [omegaLoop]
      split
      · rename_i h
        have := nbits_sub_one_lt h
        apply ih <;> simp <;> omega
      · rfl

/-- The length groups R101 puts before a code component of `L + 1` bits. -/
def omegaPrefix (L : Nat) : Bits := omegaLoop L L []

@[simp] theorem omegaPrefix_zero : omegaPrefix 0 = [] := rfl

/-- One turn of the loop: the groups before, then the group that carries `L`. -/
theorem omegaPrefix_pos {L : Nat} (h : 1 ≤ L) :
    omegaPrefix L = omegaPrefix (nbits L - 1) ++ clear0 (bin L) := by
  obtain ⟨k, rfl⟩ : ∃ k, L = k + 1 := ⟨L - 1, by omega⟩
  have hlt := nbits_sub_one_lt h
  simp only [omegaPrefix]
  rw [omegaLoop, if_pos h]
  simp only [length_clear0, length_bin]
  rw [omegaLoop_append, omegaLoop_fuel k (nbits (k + 1) - 1) _ _ (by omega) le_rfl, List.append_nil]

theorem omega_zero : omega 0 = none := rfl

theorem omega_pos {n : Nat} (h : 1 ≤ n) : omega n = some (omegaPrefix (nbits n - 1) ++ bin n) := by
  rw [omega, if_neg (Nat.ne_of_gt h)]
  simp only [length_bin]
  rw [omegaLoop_append]
  rfl

theorem fix7_of_lt {v : Nat} (h : v < 128) : fix7 v = some (fixed v 7) := if_pos h

theorem fix7_of_ge {v : Nat} (h : 128 ≤ v) : fix7 v = none := if_neg (Nat.not_lt.mpr h)

end Sys2Proof.Machine
end

