-- ==== Sys2Proof/Laws/State.lean ====
section
/-! SUPPORT. One lemma per field per update of State, so that no proof unfolds a record update. -/

namespace Sys2Proof.Machine

@[simp] theorem raiseError_cfg (c : ErrCode) (s : State) : (raiseError c s).cfg = s.cfg := rfl
@[simp] theorem raiseError_ctl (c : ErrCode) (s : State) : (raiseError c s).ctl = .error := rfl
@[simp] theorem raiseError_err (c : ErrCode) (s : State) : (raiseError c s).err = c := rfl
@[simp] theorem raiseError_buf (c : ErrCode) (s : State) : (raiseError c s).buf = s.buf := rfl
@[simp] theorem raiseError_blen (c : ErrCode) (s : State) : (raiseError c s).blen = 0 := rfl
@[simp] theorem raiseError_lastlen (c : ErrCode) (s : State) : (raiseError c s).lastlen = s.lastlen := rfl
@[simp] theorem raiseError_pending (c : ErrCode) (s : State) : (raiseError c s).pending = s.pending := rfl
@[simp] theorem raiseError_reads (c : ErrCode) (s : State) : (raiseError c s).reads = s.reads := rfl
@[simp] theorem raiseError_sinkLog (c : ErrCode) (s : State) : (raiseError c s).sinkLog = s.sinkLog := rfl

@[simp] theorem sinkWrite_cfg (f : Bits) (s : State) : (sinkWrite f s).cfg = s.cfg := rfl
@[simp] theorem sinkWrite_ctl (f : Bits) (s : State) : (sinkWrite f s).ctl = s.ctl := rfl
@[simp] theorem sinkWrite_err (f : Bits) (s : State) : (sinkWrite f s).err = s.err := rfl
@[simp] theorem sinkWrite_buf (f : Bits) (s : State) : (sinkWrite f s).buf = s.buf := rfl
@[simp] theorem sinkWrite_blen (f : Bits) (s : State) : (sinkWrite f s).blen = s.blen := rfl
@[simp] theorem sinkWrite_lastlen (f : Bits) (s : State) : (sinkWrite f s).lastlen = s.lastlen := rfl
@[simp] theorem sinkWrite_pending (f : Bits) (s : State) : (sinkWrite f s).pending = s.pending := rfl
@[simp] theorem sinkWrite_reads (f : Bits) (s : State) : (sinkWrite f s).reads = s.reads := rfl
@[simp] theorem sinkWrite_sinkLog (f : Bits) (s : State) : (sinkWrite f s).sinkLog = s.sinkLog ++ [f] := rfl

@[simp] theorem applyReset_cfg (s : State) : (applyReset s).cfg = s.cfg := rfl
@[simp] theorem applyReset_ctl (s : State) : (applyReset s).ctl = .idle := rfl
@[simp] theorem applyReset_err (s : State) : (applyReset s).err = .noError := rfl
@[simp] theorem applyReset_buf (s : State) : (applyReset s).buf = [] := rfl
@[simp] theorem applyReset_blen (s : State) : (applyReset s).blen = 0 := rfl
@[simp] theorem applyReset_lastlen (s : State) : (applyReset s).lastlen = 0 := rfl
@[simp] theorem applyReset_pending (s : State) : (applyReset s).pending = s.pending := rfl
@[simp] theorem applyReset_reads (s : State) : (applyReset s).reads = s.reads := rfl
@[simp] theorem applyReset_sinkLog (s : State) : (applyReset s).sinkLog = s.sinkLog := rfl

@[simp] theorem hostRead_cfg (a : RegAddr) (s : State) : (hostRead a s).cfg = s.cfg := rfl
@[simp] theorem hostRead_ctl (a : RegAddr) (s : State) : (hostRead a s).ctl = s.ctl := rfl
@[simp] theorem hostRead_err (a : RegAddr) (s : State) : (hostRead a s).err = s.err := rfl
@[simp] theorem hostRead_buf (a : RegAddr) (s : State) : (hostRead a s).buf = s.buf := rfl
@[simp] theorem hostRead_blen (a : RegAddr) (s : State) : (hostRead a s).blen = s.blen := rfl
@[simp] theorem hostRead_lastlen (a : RegAddr) (s : State) : (hostRead a s).lastlen = s.lastlen := rfl
@[simp] theorem hostRead_pending (a : RegAddr) (s : State) : (hostRead a s).pending = s.pending := rfl
@[simp] theorem hostRead_reads (a : RegAddr) (s : State) : (hostRead a s).reads = s.reads ++ [readReg s a] := rfl
@[simp] theorem hostRead_sinkLog (a : RegAddr) (s : State) : (hostRead a s).sinkLog = s.sinkLog := rfl

@[simp] theorem State.resetOf_cfg (c : Config) : (State.resetOf c).cfg = c := rfl
@[simp] theorem State.resetOf_ctl (c : Config) : (State.resetOf c).ctl = .idle := rfl
@[simp] theorem State.resetOf_err (c : Config) : (State.resetOf c).err = .noError := rfl
@[simp] theorem State.resetOf_buf (c : Config) : (State.resetOf c).buf = [] := rfl
@[simp] theorem State.resetOf_blen (c : Config) : (State.resetOf c).blen = 0 := rfl
@[simp] theorem State.resetOf_lastlen (c : Config) : (State.resetOf c).lastlen = 0 := rfl
@[simp] theorem State.resetOf_pending (c : Config) : (State.resetOf c).pending = [] := rfl
@[simp] theorem State.resetOf_reads (c : Config) : (State.resetOf c).reads = [] := rfl
@[simp] theorem State.resetOf_sinkLog (c : Config) : (State.resetOf c).sinkLog = [] := rfl

end Sys2Proof.Machine
end

