-- ==== Sys2Proof/Laws/Ops.lean ====
section
/-! SUPPORT. What each shared operation does, said once: the ERROR gate, the state check, the append
primitive, the append commands; and that every operation keeps the form of the bit buffer. -/

namespace Sys2Proof.Machine

/-! ### The gates -/

@[simp] theorem unlessError_of_error {act : State → State} {s : State} (h : s.ctl = .error) :
    unlessError act s = s := if_pos h

@[simp] theorem unlessError_of_not_error {act : State → State} {s : State} (h : s.ctl ≠ .error) :
    unlessError act s = act s := if_neg h

@[simp] theorem requireOpen_of_opened {act : State → State} {s : State} (h : s.ctl = .opened) :
    requireOpen act s = act s := if_pos h

@[simp] theorem requireOpen_of_not_opened {act : State → State} {s : State} (h : s.ctl ≠ .opened) :
    requireOpen act s = raiseError .sequence s := if_neg h

/-! ### The append primitive (20_memory.md R51) -/

theorem bufAppend_of_fits {f : Bits} {s : State} (h : s.blen + f.length ≤ s.cfg.bufCap) :
    bufAppend f s = { s with
      buf := writeBits s.buf s.blen f
      blen := s.blen + f.length
      lastlen := f.length } := if_neg (Nat.not_lt.mpr h)

theorem bufAppend_of_overflow {f : Bits} {s : State} (h : s.cfg.bufCap < s.blen + f.length) :
    bufAppend f s = raiseError .overflow s := if_pos h

theorem length_writeBits {buf : Bits} {pos : Nat} (f : Bits) (h : pos ≤ buf.length) :
    (writeBits buf pos f).length = max (pos + f.length) buf.length := by
  simp only [writeBits, List.length_append, List.length_take, List.length_drop]
  omega

theorem take_writeBits {buf : Bits} {pos : Nat} (f : Bits) (h : pos ≤ buf.length) :
    (writeBits buf pos f).take (pos + f.length) = buf.take pos ++ f := by
  rw [writeBits, List.take_append_of_le_length (by simp [h]), List.take_of_length_le (by simp)]

/-- A bit outside the written ones reads as before. -/
theorem getElem?_writeBits_outside {buf : Bits} {pos : Nat} (f : Bits) (h : pos ≤ buf.length) {i : Nat}
    (hi : i < pos ∨ pos + f.length ≤ i) : (writeBits buf pos f)[i]? = buf[i]? := by
  rcases hi with hi | hi
  · rw [writeBits, List.append_assoc, List.getElem?_append_left (by simp; omega), List.getElem?_take_of_lt hi]
  · rw [writeBits, List.getElem?_append_right (by simp; omega), List.getElem?_drop]
    congr 1
    simp
    omega

/-- The stream after an append that fits is the stream before, then the fragment (R52). -/
theorem stream_bufAppend {f : Bits} {s : State} (hb : BufForm s)
    (h : s.blen + f.length ≤ s.cfg.bufCap) : (bufAppend f s).stream = s.stream ++ f := by
  rw [bufAppend_of_fits h]
  exact take_writeBits f hb.written

/-! ### The append commands (R107, R108, R130, R182) -/

theorem appendCommand_of_error {c : ErrCode} {f : Option Bits} {s : State} (h : s.ctl = .error) :
    appendCommand c f s = s := if_pos h

theorem appendCommand_of_sequence {c : ErrCode} {f : Option Bits} {s : State} (h : s.ctl ≠ .error)
    (h' : s.ctl ≠ .opened) : appendCommand c f s = raiseError .sequence s := by
  simp [appendCommand, h, h']

theorem appendCommand_of_none {c : ErrCode} {s : State} (h : s.ctl = .opened) :
    appendCommand c none s = raiseError c s := by
  simp [appendCommand, h]

theorem appendCommand_of_some {c : ErrCode} {f : Bits} {s : State} (h : s.ctl = .opened) :
    appendCommand c (some f) s = bufAppend f s := by
  simp [appendCommand, h]

/-! ### Every operation keeps the form of the bit buffer (10_state.md R22, R25) -/

theorem bufForm_resetOf (c : Config) : BufForm (State.resetOf c) := ⟨le_rfl, Nat.zero_le _⟩

theorem bufForm_raiseError {s : State} (c : ErrCode) (h : BufForm s) : BufForm (raiseError c s) :=
  ⟨Nat.zero_le _, h.within⟩

theorem bufForm_bufAppend {s : State} (f : Bits) (h : BufForm s) : BufForm (bufAppend f s) := by
  by_cases hf : s.blen + f.length ≤ s.cfg.bufCap
  · have hl := length_writeBits f h.written
    have hw := h.within
    rw [bufAppend_of_fits hf]
    constructor
    · show s.blen + f.length ≤ (writeBits s.buf s.blen f).length
      omega
    · show (writeBits s.buf s.blen f).length ≤ s.cfg.bufCap
      omega
  · rw [bufAppend_of_overflow (Nat.not_le.mp hf)]
    exact bufForm_raiseError _ h

theorem bufForm_sinkWrite {s : State} (f : Bits) (h : BufForm s) : BufForm (sinkWrite f s) :=
  ⟨h.written, h.within⟩

theorem bufForm_applyReset (s : State) : BufForm (applyReset s) := ⟨le_rfl, Nat.zero_le _⟩

theorem bufForm_hostRead {s : State} (a : RegAddr) (h : BufForm s) : BufForm (hostRead a s) :=
  ⟨h.written, h.within⟩

/-! ### Runs -/

/-- The host interface's run, one step at a time. -/
theorem coreRun_succ_of_next (M : Host.Core) (k : Nat) (s t : M.State) (h : M.step s = .next t) :
    M.run (k + 1) s = M.run k t := by simp only [Host.Core.run, h]

theorem coreRun_succ_of_refused (M : Host.Core) (k : Nat) (s : M.State) (r : M.Refusal)
    (h : M.step s = .refused r) : M.run (k + 1) s = .refused r := by simp only [Host.Core.run, h]

/-- A run of steps is the host interface's run of the machine. -/
theorem runSteps_eq_coreRun (k : Nat) (s : State) : runSteps k s = Host.Core.run core k s := by
  induction k generalizing s with
  | zero => rfl
  | succ k ih =>
    cases h : step s with
    | next t =>
      rw [runSteps, h]
      exact (ih t).trans (coreRun_succ_of_next core k s t h).symm
    | fault r => cases r
    | refused r =>
      rw [runSteps, h]
      exact (coreRun_succ_of_refused core k s r h).symm

theorem runSteps_zero (s : State) : runSteps 0 s = .next s := rfl

theorem runSteps_succ_of_next {s t : State} (k : Nat) (h : step s = .next t) :
    runSteps (k + 1) s = runSteps k t := by rw [runSteps, h]

/-- Two runs, one after the other. -/
theorem runSteps_add_of_next {j : Nat} {s t : State} (k : Nat) (h : runSteps j s = .next t) :
    runSteps (j + k) s = runSteps k t := by
  induction j generalizing s with
  | zero => cases h; rw [Nat.zero_add]
  | succ j ih =>
    rw [runSteps] at h
    split at h
    · rename_i u hu
      rw [Nat.add_right_comm, runSteps_succ_of_next _ hu, ih h]
    · cases h
    · cases h

end Sys2Proof.Machine
end

