-- ==== Sys2Proof/Laws/Step.lean ====
section
/-! SUPPORT. What a command, a word and a step can do, said once: the inversion lemmas that invariants and
whole-machine rules are derived from. -/

namespace Sys2Proof.Machine

/-- What a command word can do to a state (42_control.md R144, 60_exceptions.md R181): nothing, an error
entry, OPEN, ABORT, an append that fits, or a delivery. -/
inductive Effect (s : State) : State → Prop where
  | unchanged : Effect s s
  | raised (c : ErrCode) (hs : s.ctl ≠ .error) (hc : c ≠ .noError) : Effect s (raiseError c s)
  | started : Effect s { s with ctl := .opened, err := .noError, blen := 0, lastlen := 0 }
  | abandoned : Effect s { s with ctl := .idle, blen := 0, lastlen := 0 }
  | appended (f : Bits) (hs : s.ctl = .opened) (hf : s.blen + f.length ≤ s.cfg.bufCap) :
      Effect s { s with
        buf := writeBits s.buf s.blen f, blen := s.blen + f.length, lastlen := f.length }
  | delivered (hs : s.ctl = .opened) (hb : s.blen ≠ 0) :
      Effect s { sinkWrite s.stream s with ctl := .done }

theorem effect_bufAppend {s : State} (f : Bits) (hs : s.ctl = .opened) : Effect s (bufAppend f s) := by
  by_cases hf : s.blen + f.length ≤ s.cfg.bufCap
  · rw [bufAppend_of_fits hf]
    exact .appended f hs hf
  · rw [bufAppend_of_overflow (Nat.not_le.mp hf)]
    exact .raised _ (by simp [hs]) (by simp)

/-- The ERROR gate over the state check: nothing in ERROR, SEQUENCE in IDLE and DONE, else the body. -/
theorem effect_gated {s : State} {act : State → State} (h : s.ctl = .opened → Effect s (act s)) :
    Effect s (unlessError (requireOpen act) s) := by
  by_cases he : s.ctl = .error
  · rw [unlessError_of_error he]
    exact .unchanged
  · rw [unlessError_of_not_error he]
    by_cases ho : s.ctl = .opened
    · rw [requireOpen_of_opened ho]
      exact h ho
    · rw [requireOpen_of_not_opened ho]
      exact .raised _ he (by simp)

theorem effect_appendCommand {s : State} {c : ErrCode} (hc : c ≠ .noError) (f : Option Bits) :
    Effect s (appendCommand c f s) :=
  effect_gated fun ho =>
    match f with
    | none => .raised c (by simp [ho]) hc
    | some f => effect_bufAppend f ho

theorem effect_commitOpened {s : State} (ho : s.ctl = .opened) : Effect s (commitOpened s) := by
  unfold commitOpened
  split
  · exact .raised _ (by simp [ho]) (by simp)
  · exact .delivered ho ‹_›

/-- What `exec` can do. -/
theorem exec_effect {i : Instr} {s t : State} (h : exec i s = .next t) : Effect s t := by
  cases i <;> cases h
  · exact .unchanged
  · exact .started
  · exact effect_appendCommand (by simp) _
  · exact effect_appendCommand (by simp) _
  · exact effect_gated fun ho => effect_bufAppend _ ho
  · exact effect_gated effect_commitOpened
  · exact .abandoned

/-- What a command word can do. -/
theorem runWord_effect {w : CmdWord} {s t : State} (h : runWord w s = .next t) : Effect s t := by
  unfold runWord at h
  split at h
  · exact exec_effect h
  · cases h
    by_cases he : s.ctl = .error
    · rw [illegalWord, unlessError_of_error he]
      exact .unchanged
    · rw [illegalWord, unlessError_of_not_error he]
      exact .raised _ he (by simp)

/-- What a step can do: idle, a command word, a read or a reset. -/
theorem step_cases {s t : State} (h : step s = .next t) :
    (s.pending = [] ∧ t = s) ∨
    (∃ w rest, s.pending = .cmd w :: rest ∧ runWord w { s with pending := rest } = .next t) ∨
    (∃ a rest, s.pending = .read a :: rest ∧ t = hostRead a { s with pending := rest }) ∨
    (∃ rest, s.pending = .reset :: rest ∧ t = applyReset { s with pending := rest }) := by
  unfold step at h
  split at h
  · rename_i hp
    cases h
    exact .inl ⟨hp, rfl⟩
  · rename_i w rest hp
    exact .inr (.inl ⟨w, rest, hp, h⟩)
  · rename_i a rest hp
    cases h
    exact .inr (.inr (.inl ⟨a, rest, hp, rfl⟩))
  · rename_i rest hp
    cases h
    exact .inr (.inr (.inr ⟨rest, hp, rfl⟩))

end Sys2Proof.Machine
end

