-- ==== Sys2Proof/Laws/HostProgram.lean ====
section
/-! SUPPORT. The Host's operations issued one by one are the steps of a run with all of them pending
(20_memory.md R60), so what holds of runs holds of the Host's program (Machine/HostProgram.lean). -/

namespace Sys2Proof.Machine

/-- `s` with other operations pending. -/
def State.withPending (s : State) (ops : List HostOp) : State := { s with pending := ops }

@[simp] theorem State.withPending_pending (s : State) (ops : List HostOp) :
    (s.withPending ops).pending = ops := rfl
@[simp] theorem State.withPending_withPending (s : State) (ops ops' : List HostOp) :
    (s.withPending ops).withPending ops' = s.withPending ops' := rfl
theorem State.withPending_self (s : State) : s.withPending s.pending = s := rfl

/-- The operation keeps what is pending and depends on it in nothing. -/
def PendingFree (f : State → State) : Prop :=
  ∀ s ops, (f s).pending = s.pending ∧ f (s.withPending ops) = (f s).withPending ops

theorem pendingFree_raiseError (c : ErrCode) : PendingFree (raiseError c) := fun _ _ => ⟨rfl, rfl⟩

theorem pendingFree_unlessError {f : State → State} (hf : PendingFree f) : PendingFree (unlessError f) := by
  intro s ops
  simp only [unlessError, show (s.withPending ops).ctl = s.ctl from rfl]
  split
  · exact ⟨rfl, rfl⟩
  · exact hf s ops

theorem pendingFree_requireOpen {f : State → State} (hf : PendingFree f) : PendingFree (requireOpen f) := by
  intro s ops
  simp only [requireOpen, show (s.withPending ops).ctl = s.ctl from rfl]
  split
  · exact hf s ops
  · exact ⟨rfl, rfl⟩

theorem pendingFree_bufAppend (f : Bits) : PendingFree (bufAppend f) := by
  intro s ops
  simp only [bufAppend, show (s.withPending ops).cfg = s.cfg from rfl,
    show (s.withPending ops).blen = s.blen from rfl]
  split <;> exact ⟨rfl, rfl⟩

theorem pendingFree_commitOpened : PendingFree commitOpened := by
  intro s ops
  simp only [commitOpened, show (s.withPending ops).blen = s.blen from rfl]
  split <;> exact ⟨rfl, rfl⟩

theorem pendingFree_appendCommand (c : ErrCode) (f : Option Bits) : PendingFree (appendCommand c f) := by
  refine pendingFree_unlessError (pendingFree_requireOpen ?_)
  cases f with
  | none => exact pendingFree_raiseError c
  | some f => exact pendingFree_bufAppend f

/-- Every word is a next state, by an operation that leaves what is pending alone. -/
theorem runWord_pendingFree (w : CmdWord) : ∃ f, PendingFree f ∧ ∀ s, runWord w s = .next (f s) := by
  unfold runWord
  cases decode w with
  | illegal _ => exact ⟨illegalWord, pendingFree_unlessError (pendingFree_raiseError _), fun _ => rfl⟩
  | legal i =>
    cases i with
    | nop => exact ⟨id, fun _ _ => ⟨rfl, rfl⟩, fun _ => rfl⟩
    | openC =>
      exact ⟨fun s => { s with ctl := .opened, err := .noError, blen := 0, lastlen := 0 },
        fun _ _ => ⟨rfl, rfl⟩, fun _ => rfl⟩
    | omega n => exact ⟨_, pendingFree_appendCommand _ _, fun _ => rfl⟩
    | fix7 v => exact ⟨_, pendingFree_appendCommand _ _, fun _ => rfl⟩
    | bits lm1 d =>
      exact ⟨_, pendingFree_unlessError (pendingFree_requireOpen (pendingFree_bufAppend _)), fun _ => rfl⟩
    | commit =>
      exact ⟨_, pendingFree_unlessError (pendingFree_requireOpen pendingFree_commitOpened), fun _ => rfl⟩
    | abort =>
      exact ⟨fun s => { s with ctl := .idle, blen := 0, lastlen := 0 },
        fun _ _ => ⟨rfl, rfl⟩, fun _ => rfl⟩

/-- A step takes its operation and depends on the later ones in nothing (R60). -/
theorem step_withPending {s t : State} (op : HostOp) (rest : List HostOp)
    (h : step (s.withPending [op]) = .next t) :
    t.pending = [] ∧ step (s.withPending (op :: rest)) = .next (t.withPending rest) := by
  cases op with
  | cmd w =>
    obtain ⟨f, hf, hw⟩ := runWord_pendingFree w
    change runWord w (s.withPending []) = .next t at h
    rw [hw] at h
    cases h
    obtain ⟨hp, hr⟩ := hf (s.withPending []) rest
    exact ⟨hp, (hw (s.withPending rest)).trans (congrArg Host.Outcome.next hr)⟩
  | read a => cases h; exact ⟨rfl, rfl⟩
  | reset => cases h; exact ⟨rfl, rfl⟩

/-- Operations issued one by one: a run with all of them pending. -/
theorem runSteps_of_issue : ∀ (ops : List HostOp) {s t : State}, s.pending = [] →
    issue ops s = .next t → t.pending = [] ∧ runSteps ops.length (s.withPending ops) = .next t
  | [], s, t, hs, h => by
    cases h
    exact ⟨hs, congrArg Host.Outcome.next (hs ▸ s.withPending_self)⟩
  | op :: rest, s, t, _, h => by
    rw [issue] at h
    split at h
    · next u hu =>
      obtain ⟨hp, hstep⟩ := step_withPending op rest hu
      obtain ⟨ht, hr⟩ := runSteps_of_issue rest hp h
      exact ⟨ht, (runSteps_succ_of_next _ hstep).trans hr⟩
    · cases h
    · cases h

/-- `STATUS` shows DONE or ERROR exactly in those states (10_state.md R29). -/
theorem constructionOver_status (s : State) :
    constructionOver (readReg s 0x0#4) = true ↔ s.ctl = .done ∨ s.ctl = .error := by
  have h : ∀ (c : BitVec 2) (e : BitVec 4),
      constructionOver ((e.setWidth 32 <<< 4) ||| c.setWidth 32) = (c == 2#2 || c == 3#2) := by decide
  change constructionOver (statusWord s) = true ↔ _
  rw [statusWord, h]
  cases s.ctl <;> decide

/-- The Host's poll ends at its first read when that shows DONE or ERROR (R162). -/
theorem pollStatus_of_over {s : State} (polls : Nat) (h : s.ctl = .done ∨ s.ctl = .error) :
    pollStatus (polls + 1) s =
      .next { s with pending := [], reads := s.reads ++ [readReg s 0x0#4] } := by
  have hr : issue [.read 0x0#4] s =
      .next { s with pending := [], reads := s.reads ++ [readReg s 0x0#4] } := rfl
  rw [pollStatus, hr]
  simp [(constructionOver_status s).mpr h]

end Sys2Proof.Machine
end

