-- ==== Sys2Proof/Laws/HeaderProperties.lean ====
section
/-! SUPPORT. The testable properties of 43_header_format.md R166: determinism and the alphabet boundary, and
all five from the statements on the Host's sequence, the parser and the code words. -/

namespace Sys2Proof.Laws

open Sys2Proof Sys2Proof.Machine

/-! ### Determinism (R166 item 4) -/

/-- The operation takes states alike to states alike, and adds the same to both Sink logs. -/
def KeepsVisible (f : State → State) : Prop :=
  ∀ s s', SameVisible s s' → SameVisible (f s) (f s') ∧
    ∃ d, (f s).sinkLog = s.sinkLog ++ d ∧ (f s').sinkLog = s'.sinkLog ++ d

theorem keepsVisible_id : KeepsVisible id := fun _ _ h => ⟨h, [], by simp⟩

/-- An operation that leaves the Sink log and no bit of the stream, and sets or keeps the rest. -/
theorem keepsVisible_clear (c : State → Ctl) (e : State → ErrCode) (l : State → Nat)
    (b : State → Bits) (h : ∀ s s', SameVisible s s' → c s = c s' ∧ e s = e s' ∧ l s = l s') :
    KeepsVisible fun s => { s with ctl := c s, err := e s, blen := 0, lastlen := l s, buf := b s } :=
  fun s s' hs => ⟨⟨hs.cfg, (h s s' hs).1, (h s s' hs).2.1, rfl, (h s s' hs).2.2, rfl⟩, [], by simp⟩

theorem keepsVisible_raiseError (c : ErrCode) : KeepsVisible (raiseError c) :=
  keepsVisible_clear _ _ State.lastlen State.buf fun _ _ h => ⟨rfl, rfl, h.lastlen⟩

theorem keepsVisible_unlessError {f : State → State} (hf : KeepsVisible f) :
    KeepsVisible (unlessError f) := by
  intro s s' h
  simp only [unlessError, h.ctl]
  split
  · exact keepsVisible_id s s' h
  · exact hf s s' h

theorem keepsVisible_requireOpen {f : State → State} (hf : KeepsVisible f) :
    KeepsVisible (requireOpen f) := by
  intro s s' h
  simp only [requireOpen, h.ctl]
  split
  · exact hf s s' h
  · exact keepsVisible_raiseError _ s s' h

/-- What is written at the end of the stream is put after it. -/
theorem take_writeBits_stream (s : State) (f : Bits) :
    (writeBits s.buf s.blen f).take (s.blen + f.length) = s.stream ++ f := by
  obtain h | h := Nat.le_total s.blen s.buf.length
  · exact take_writeBits f h
  · rw [writeBits, State.stream, List.drop_eq_nil_of_le (by omega), List.append_nil,
      List.take_of_length_le (by simp)]

theorem keepsVisible_bufAppend (f : Bits) : KeepsVisible (bufAppend f) := by
  intro s s' h
  simp only [bufAppend, h.cfg, h.blen]
  split
  · exact keepsVisible_raiseError _ s s' h
  · refine ⟨⟨rfl, h.ctl, h.err, rfl, rfl, ?_⟩, [], by simp⟩
    have h1 := take_writeBits_stream s f
    rw [h.stream, h.blen, ← take_writeBits_stream s' f] at h1
    exact h1

theorem keepsVisible_commitOpened : KeepsVisible commitOpened := by
  intro s s' h
  simp only [commitOpened, h.blen]
  split
  · exact keepsVisible_raiseError _ s s' h
  · exact ⟨⟨h.cfg, rfl, h.err, h.blen, h.lastlen, h.stream⟩, [s.stream], rfl,
      by rw [h.stream]; rfl⟩

theorem keepsVisible_appendCommand (c : ErrCode) (f : Option Bits) : KeepsVisible (appendCommand c f) := by
  refine keepsVisible_unlessError (keepsVisible_requireOpen ?_)
  cases f with
  | none => exact keepsVisible_raiseError c
  | some f => exact keepsVisible_bufAppend f

/-- What OPEN does (R141), as an operation on states. -/
def openState (s : State) : State := { s with ctl := .opened, err := .noError, blen := 0, lastlen := 0 }

/-- Every word is a next state, by an operation that keeps states alike. -/
theorem runWord_keepsVisible (w : CmdWord) : ∃ f, KeepsVisible f ∧ ∀ s, runWord w s = .next (f s) := by
  unfold runWord
  cases decode w with
  | illegal _ => exact ⟨illegalWord, keepsVisible_unlessError (keepsVisible_raiseError _), fun _ => rfl⟩
  | legal i =>
    cases i with
    | nop => exact ⟨id, keepsVisible_id, fun _ => rfl⟩
    | openC =>
      exact ⟨openState, keepsVisible_clear _ _ (fun _ => 0) State.buf fun _ _ _ => ⟨rfl, rfl, rfl⟩,
        fun _ => rfl⟩
    | omega n => exact ⟨_, keepsVisible_appendCommand _ _, fun _ => rfl⟩
    | fix7 v => exact ⟨_, keepsVisible_appendCommand _ _, fun _ => rfl⟩
    | bits lm1 d =>
      exact ⟨_, keepsVisible_unlessError (keepsVisible_requireOpen (keepsVisible_bufAppend _)),
        fun _ => rfl⟩
    | commit =>
      exact ⟨_, keepsVisible_unlessError (keepsVisible_requireOpen keepsVisible_commitOpened),
        fun _ => rfl⟩
    | abort =>
      exact ⟨fun s => { s with ctl := .idle, blen := 0, lastlen := 0 },
        keepsVisible_clear _ State.err (fun _ => 0) State.buf fun _ _ h => ⟨rfl, h.err, rfl⟩,
        fun _ => rfl⟩

/-- Every operation of the Host likewise. -/
theorem step_keepsVisible (op : HostOp) :
    ∃ f, KeepsVisible f ∧ ∀ s, step { s with pending := [op] } = .next (f s) := by
  cases op with
  | cmd w =>
    obtain ⟨f, hf, hw⟩ := runWord_keepsVisible w
    exact ⟨fun s => f { s with pending := [] },
      fun s s' h => hf _ _ ⟨h.cfg, h.ctl, h.err, h.blen, h.lastlen, h.stream⟩, fun s => hw _⟩
  | read a =>
    exact ⟨fun s => hostRead a { s with pending := [] },
      fun s s' h => ⟨⟨h.cfg, h.ctl, h.err, h.blen, h.lastlen, h.stream⟩, [], by simp [hostRead]⟩,
      fun _ => rfl⟩
  | reset =>
    exact ⟨fun s => applyReset { s with pending := [] },
      fun s s' h => ⟨⟨h.cfg, rfl, rfl, rfl, rfl, rfl⟩, [], by simp [applyReset]⟩, fun _ => rfl⟩

theorem issue_keepsVisible : ∀ ops : List HostOp,
    ∃ f, KeepsVisible f ∧ ∀ s, issue ops s = .next (f s)
  | [] => ⟨id, keepsVisible_id, fun _ => rfl⟩
  | op :: ops => by
    obtain ⟨f, hf, hs⟩ := step_keepsVisible op
    obtain ⟨g, hg, hi⟩ := issue_keepsVisible ops
    refine ⟨g ∘ f, fun s s' h => ?_, fun s => by simp only [issue, hs, hi, Function.comp]⟩
    obtain ⟨h1, d, hd, hd'⟩ := hf s s' h
    obtain ⟨h2, e, he, he'⟩ := hg _ _ h1
    exact ⟨h2, d ++ e, by simp [he, hd], by simp [he', hd']⟩

/-- R166 item 4: EOE has no hidden input. -/
theorem sameDelivery_of_sameVisible (ops : List HostOp) {s s' : State} (h : SameVisible s s') :
    SameDelivery ops s s' := by
  obtain ⟨f, hf, hi⟩ := issue_keepsVisible ops
  obtain ⟨_, d, hd, hd'⟩ := hf s s' h
  simp [SameDelivery, hi, delivered, hd, hd']

/-- R166 item 4: a sequence that begins with OPEN delivers the same streams from every state. -/
theorem sameDelivery_open (ops : List HostOp) {s s' : State} (h : s.cfg = s'.cfg) :
    SameDelivery (.cmd (encode .openC) :: ops) s s' := by
  have ho : ∀ s, issue (.cmd (encode .openC) :: ops) s =
      issue ops (openState { s with pending := [] }) := fun _ => rfl
  have := sameDelivery_of_sameVisible ops
    (s := openState { s with pending := [] }) (s' := openState { s' with pending := [] })
    ⟨h, rfl, rfl, rfl, rfl, rfl⟩
  simp only [SameDelivery, ho]
  exact this

/-! ### The alphabet boundary (R166 item 5) -/

theorem alphabetBoundary {s : State} (ho : s.ctl = .opened) (hb : BufForm s)
    (hf : s.blen + 7 ≤ s.cfg.bufCap) : AlphabetBoundary s := by
  have h127 : fix7 (fix7Operand 127#32) = some (List.replicate 7 true) := by decide
  have h128 : fix7 (fix7Operand 128#32) = none := by decide
  refine ⟨⟨bufAppend (List.replicate 7 true) s, ?_, ?_, stream_bufAppend hb hf⟩, ?_⟩
  · rw [exec, execFix7, h127, appendCommand_of_some ho]
  · rw [bufAppend_of_fits hf]; exact ho
  · rw [exec, execFix7, h128, appendCommand_of_none ho]

/-! ### All of R166 -/

theorem entriesBits_symbols : ∀ {es : List CodeEntry} {b : Bits}, entriesBits es = some b →
    ∀ e ∈ es, e.1 < 128
  | [], _, _ => by simp
  | e :: es, b, h => by
    simp only [entriesBits, entryBits] at h
    obtain hlt | hge := Nat.lt_or_ge e.1 128
    · intro e' he'
      obtain rfl | he' := List.mem_cons.mp he'
      · exact hlt
      · cases hb : entriesBits es with
        | none => simp [hb] at h
        | some b' => exact entriesBits_symbols hb e' he'
    · simp [fix7_of_ge hge] at h

/-- What a list of entries that has a header is. -/
theorem header_some {es : List CodeEntry} {h : Bits} (hh : header es = some h) :
    1 ≤ es.length ∧ ∀ e ∈ es, e.1 < 128 := by
  rw [header] at hh
  cases hU : omega es.length with
  | none => simp [hU] at hh
  | some u =>
    cases hb : entriesBits es with
    | none => simp [hU, hb] at hh
    | some b =>
      refine ⟨Nat.pos_of_ne_zero fun h0 => ?_, entriesBits_symbols hb⟩
      simp [h0, omega_zero] at hU

/-- R166, items 1 to 5, from the statements on the Host's sequence, the parser and the code words. -/
theorem headerProperties (hseq : Obligations.HostSequenceDeliversTheHeader)
    (hparse : Obligations.ParseHeaderInvertsHeader) (hcode : Obligations.CodeWordsFormAPrefixCode)
    (hone : Obligations.SingleSymbolHeader) : HeaderProperties where
  roundTrip s es h hc hn hl hh hfit := by
    obtain ⟨hpos, hs⟩ := header_some hh
    obtain ⟨hh', _, t, _, _, hok, _, _, hpoll⟩ :=
      hseq s es hc hpos hn fun e he => ⟨hs e he, hl e he⟩
    cases hh.symm.trans hh'
    exact ⟨_, _, hpoll 0, by simp [delivered, (hok hfit).2.1], (hparse es _ hh).1⟩
  prefixFree text := (hcode text).2.2
  singleSymbol a k s ha hk hc := by
    obtain ⟨hw, f, hf, hh⟩ := hone a k ha hk
    obtain rfl : fixed a 7 = f := Option.some.inj ((fix7_of_lt ha).symm.trans hf)
    obtain ⟨hh', hcmd, t, _, _, hok, _, _, hpoll⟩ :=
      hseq s [(a, [false])] hc (by simp) (by simp) (by simpa using ha)
    have hb := Option.some.inj (hh.symm.trans hh')
    have hfit : (Claims.headerBits [(a, [false])]).length ≤ s.cfg.bufCap := by
      have : 43 ≤ s.cfg.bufCap := by
        simp only [Config.legal, Bool.and_eq_true, decide_eq_true_eq] at hc
        exact hc.1
      rw [← hb]; simp; omega
    have hcon : construct (List.replicate k a) = .ok (Claims.headerSequence [(a, [false])]) := by
      have h1 : (List.replicate k a).isEmpty = false := by cases k <;> simp_all
      have h2 : ((List.replicate k a).any fun s => nSym ≤ s) = false := by
        simp [List.any_replicate, nSym, Nat.not_le.mpr ha]
      rw [construct, h1, h2, hw, hcmd]; rfl
    have hp : runProgram 1 (Claims.headerSequence [(a, [false])]) s = _ :=
      Option.some.inj ((congrArg (Option.map _) hcmd).symm.trans (hpoll 0))
    refine ⟨hw, _, by rw [buildText, hcon]; rfl, ?_⟩
    change delivered s (runProgram 1 (Claims.headerSequence [(a, [false])]) s) = _
    rw [hp, hb]
    simp [delivered, (hok hfit).2.1]
  noHiddenInput ops _ _ h := sameDelivery_of_sameVisible ops h
  determinism ops _ _ h := sameDelivery_open ops h
  boundary _ ho hb hf := alphabetBoundary ho hb hf

end Sys2Proof.Laws
end

