-- ==== Sys2Proof/Laws/MergeTree.lean ====
section
/-! SUPPORT. The search over tree shapes of 43_header_format.md R167: how deep the leaves of a merge tree
are, and what they cost in a header at most. -/

namespace Sys2Proof.Laws

open Sys2Proof Sys2Proof.Machine

/-! ### `|omega(n)|` below 128 -/

/-- `|omega(d)|` for `1 <= d <= 127` (R103). -/
def omegaBits (d : Nat) : Nat :=
  if d < 1 then 0 else if d < 2 then 1 else if d < 4 then 3 else if d < 8 then 6
  else if d < 16 then 7 else if d < 32 then 11 else if d < 64 then 12 else 13

theorem length_omega_of_lt : ∀ d < 128, 1 ≤ d → (omega d).map List.length = some (omegaBits d) := by
  decide +kernel

theorem omegaBits_cases (d : Nat) :
    d < 1 ∧ omegaBits d = 0 ∨ 1 ≤ d ∧ d < 2 ∧ omegaBits d = 1 ∨ 2 ≤ d ∧ d < 4 ∧ omegaBits d = 3 ∨
    4 ≤ d ∧ d < 8 ∧ omegaBits d = 6 ∨ 8 ≤ d ∧ d < 16 ∧ omegaBits d = 7 ∨
    16 ≤ d ∧ d < 32 ∧ omegaBits d = 11 ∨ 32 ≤ d ∧ d < 64 ∧ omegaBits d = 12 ∨
    64 ≤ d ∧ omegaBits d = 13 := by
  simp only [omegaBits]; repeat' split
  all_goals omega

theorem omegaBits_mono (m t : Nat) : omegaBits m ≤ omegaBits (m + t) := by
  have := omegaBits_cases m
  have := omegaBits_cases (m + t)
  omega

theorem omegaBits_succ (m : Nat) : omegaBits (m + 1) ≤ omegaBits m + 4 := by
  have := omegaBits_cases m
  have := omegaBits_cases (m + 1)
  omega

theorem omegaBits_succ_of_le {m : Nat} (h : 16 ≤ m) : omegaBits (m + 1) ≤ omegaBits m + 1 := by
  have := omegaBits_cases m
  have := omegaBits_cases (m + 1)
  omega

/-! ### The search over tree shapes (R167) -/

/-- What a leaf of depth `d` costs in a header, without its symbol: `|c| + |omega(|c|)|`. -/
def leafBits (d : Nat) : Nat := d + omegaBits d

/-- The sum of `leafBits` over the depths 1 to `m`. -/
def leafBitsSum (m : Nat) : Nat :=
  m * (m + 1) / 2 +
    (if m < 2 then m else if m < 4 then 1 + 3 * (m - 1) else if m < 8 then 7 + 6 * (m - 3)
     else if m < 16 then 31 + 7 * (m - 7) else if m < 32 then 87 + 11 * (m - 15)
     else if m < 64 then 263 + 12 * (m - 31) else 647 + 13 * (m - 63))

/-- The cost of the depths 1, 2, ..., `m`, `m`. -/
def combBits (m : Nat) : Nat := leafBitsSum m + leafBits m

/-- How much a tree of `n` leaves below depth `k` can cost more than the comb. -/
def excess (n k : Nat) : Nat :=
  if n + k = 4 ∧ 4 ≤ n then 1 else if n + k = 6 ∧ 4 ≤ n then 2 else if n + k = 7 ∧ 5 ≤ n then 1
  else if n + k = 18 ∧ 4 ≤ n then 3 else if n + k = 19 ∧ 5 ≤ n then 2
  else if n + k = 20 ∧ 6 ≤ n then 1 else 0

/-- The most a tree of `n` leaves whose root is at depth `k` costs. -/
def treeBits (n k : Nat) : Nat := combBits (k + n - 1) + excess n k - leafBitsSum k

theorem leafBitsSum_succ : ∀ m < 128, leafBitsSum (m + 1) = leafBitsSum m + leafBits (m + 1) := by
  decide +kernel

theorem combBits_succ {m : Nat} (h : m < 128) :
    combBits (m + 1) + leafBits m = combBits m + 2 * leafBits (m + 1) := by
  have := leafBitsSum_succ m h
  simp only [combBits]; omega

theorem leafBitsSum_le_combBits : ∀ n k : Nat, k + n < 128 → leafBitsSum k ≤ combBits (k + n)
  | 0, k, _ => by simp [combBits]
  | n + 1, k, h => by
    have h1 := leafBitsSum_le_combBits n k (by omega)
    have h2 := combBits_succ (m := k + n) (by omega)
    have : leafBits (k + n) ≤ leafBits (k + n + 1) := by
      have := omegaBits_mono (k + n) 1
      simp only [leafBits]; omega
    rw [← Nat.add_assoc]; omega

/-- Where `|omega|` grows by at most `j` a step, moving a leaf from the smaller part of a split to one
that is `t` leaves larger gains at least `t - j`. -/
theorem combBits_shift {k t j c : Nat} (hj : ∀ m, k < m → omegaBits (m + 1) ≤ omegaBits m + j)
    (ht : j + c ≤ t) : ∀ a, k + a + 1 + t ≤ 128 →
    combBits (k + a + 1) + combBits (k + 1 + t) + c * a ≤ combBits (k + a + 1 + t) + combBits (k + 1)
  | 0, _ => by simp [Nat.add_comm]
  | a + 1, h => by
    have ih := combBits_shift hj ht a (by omega)
    have h1 := combBits_succ (m := k + a + 1) (by omega)
    have h2 := combBits_succ (m := k + a + 1 + t) (by omega)
    have m1 := omegaBits_mono (k + a + 1 + t) 1
    have m2 := omegaBits_mono (k + a + 2) t
    have m3 := hj (k + a + 1) (by omega)
    simp only [leafBits, show k + a + 1 + 1 = k + a + 2 by omega,
      show k + a + 1 + t + 1 = k + a + 2 + t by omega] at *
    rw [show k + (a + 1) + 1 = k + a + 2 by omega, Nat.mul_succ]
    omega

theorem excess_of_lt {n k : Nat} (h : 20 < n + k) : excess n k = 0 := by
  simp only [excess]; repeat' split
  all_goals omega

theorem excess_one (k : Nat) : excess 1 k = 0 := by simp [excess]

theorem excess_table : ∀ n < 21, ∀ k < 21, (20 < n + k || excess n k ≤ 3) = true ∧
    (n = 0 || 20 < n + k || excess (n - 1) (k + 1) ≤ excess n k) = true := by
  decide +kernel

theorem excess_le (n k : Nat) : excess n k ≤ 3 := by
  obtain h | h := Nat.lt_or_ge 20 (n + k)
  · simp [excess_of_lt h]
  · simpa [show ¬20 < n + k by omega] using (excess_table n (by omega) k (by omega)).1

theorem excess_split_one (b k : Nat) : excess b (k + 1) ≤ excess (b + 1) k := by
  obtain h | h := Nat.lt_or_ge 20 (b + 1 + k)
  · simp [excess_of_lt (n := b) (k := k + 1) (by omega)]
  · simpa [show ¬20 < b + 1 + k by omega] using (excess_table (b + 1) (by omega) k (by omega)).2

/-- Splitting `a + b` leaves below depth `k` costs no more than `treeBits` allows. -/
def splitFits (a b k : Nat) : Bool :=
  combBits (k + a) + combBits (k + b) + excess a (k + 1) + excess b (k + 1) ≤
    combBits (k + a + b - 1) + combBits (k + 1) + excess (a + b) k

/-- The splits near the root whose larger part has at most 10 leaves, one by one. -/
theorem splitFits_small : ∀ k < 19, ∀ b < 11, ∀ a < b + 1, (a < 2 || splitFits a b k) = true := by
  decide +kernel

theorem splitFits_of_le {a b k : Nat} (ha : 1 ≤ a) (hab : a ≤ b) (h : a + b + k ≤ 128) :
    splitFits a b k = true := by
  obtain rfl | ha' := Nat.eq_or_lt_of_le ha
  · have := excess_split_one b k
    simp only [splitFits, excess_one, show k + 1 + b - 1 = k + b by omega, Nat.add_comm 1 b,
      decide_eq_true_eq]
    omega
  obtain ⟨hk, hb⟩ | hkb : (k < 19 ∧ b < 11) ∨ (19 ≤ k ∨ 11 ≤ b) := by omega
  · have := splitFits_small k hk b hb a (by omega)
    rwa [decide_eq_false (by omega), Bool.false_or] at this
  have shift : combBits (k + a) + combBits (k + b) + excess a (k + 1) + excess b (k + 1) ≤
      combBits (k + a + b - 1) + combBits (k + 1) := by
    have e1 : k + 1 + (b - 1) = k + b := by omega
    have e2 : k + (a - 1) + 1 + (b - 1) = k + a + b - 1 := by omega
    have e3 : k + (a - 1) + 1 = k + a := by omega
    obtain hk | hb := hkb
    · have := combBits_shift (k := k) (t := b - 1) (j := 1) (c := 0)
        (fun m _ => omegaBits_succ_of_le (by omega)) (by omega) (a - 1) (by omega)
      have := excess_of_lt (n := a) (k := k + 1) (by omega)
      have := excess_of_lt (n := b) (k := k + 1) (by omega)
      rw [e1, e2, e3] at *; omega
    · have := combBits_shift (k := k) (t := b - 1) (j := 4) (c := 6)
        (fun m _ => omegaBits_succ m) (by omega) (a - 1) (by omega)
      have := excess_le a (k + 1)
      have := excess_le b (k + 1)
      rw [e1, e2, e3] at *; omega
  simp only [splitFits, decide_eq_true_eq]
  omega

/-- A tree's cost is at most that of its best split. -/
theorem treeBits_split {a b k : Nat} (ha : 1 ≤ a) (hb : 1 ≤ b) (h : a + b + k ≤ 128) :
    treeBits a (k + 1) + treeBits b (k + 1) ≤ treeBits (a + b) k := by
  have key : combBits (k + a) + combBits (k + b) + excess a (k + 1) + excess b (k + 1) ≤
      combBits (k + a + b - 1) + combBits (k + 1) + excess (a + b) k := by
    obtain hab | hab := Nat.le_total a b
    · simpa [splitFits] using splitFits_of_le ha hab h
    · have := splitFits_of_le (k := k) hb hab (by omega)
      simp only [splitFits, decide_eq_true_eq] at this
      rw [Nat.add_comm b a, show k + b + a - 1 = k + a + b - 1 by omega] at this; omega
  have s1 := leafBitsSum_succ k (by omega)
  have l1 := leafBitsSum_le_combBits (a - 1) (k + 1) (by omega)
  have l2 := leafBitsSum_le_combBits (b - 1) (k + 1) (by omega)
  have l3 := leafBitsSum_le_combBits (a + b - 1) k (by omega)
  simp only [treeBits]
  rw [show k + 1 + (a - 1) = k + a by omega] at l1
  rw [show k + 1 + (b - 1) = k + b by omega] at l2
  rw [show k + (a + b - 1) = k + a + b - 1 by omega] at l3
  rw [show k + 1 + a - 1 = k + a by omega, show k + 1 + b - 1 = k + b by omega,
    show k + (a + b) - 1 = k + a + b - 1 by omega]
  have : combBits (k + 1) = leafBitsSum (k + 1) + leafBits (k + 1) := rfl
  omega

/-! ### Merge trees -/

/-- The list is the depths of the leaves of a binary tree in which every inner node has two children. -/
inductive TreeDepths : List Nat → Prop where
  | leaf : TreeDepths [0]
  | node {l r : List Nat} : TreeDepths l → TreeDepths r → TreeDepths ((l ++ r).map (· + 1))

theorem TreeDepths.length_pos {l : List Nat} (h : TreeDepths l) : 1 ≤ l.length := by
  induction h with
  | leaf => simp
  | node _ _ ihl _ => simp; omega

/-- R167: the depth of the deepest leaf of a merge tree with `U` leaves is at most `U - 1`. -/
theorem TreeDepths.depth_lt {l : List Nat} (h : TreeDepths l) : ∀ d ∈ l, d < l.length := by
  induction h with
  | leaf => simp
  | node hl hr ihl ihr =>
    have := hl.length_pos
    have := hr.length_pos
    simp only [List.mem_map, List.mem_append, List.length_map, List.length_append]
    rintro _ ⟨d, hd | hd, rfl⟩
    · have := ihl d hd; omega
    · have := ihr d hd; omega

/-- R167: no leaf of a merge tree with two leaves or more is the root. -/
theorem TreeDepths.depth_pos {l : List Nat} (h : TreeDepths l) (h2 : 2 ≤ l.length) :
    ∀ d ∈ l, 1 ≤ d := by
  cases h with
  | leaf => simp at h2
  | node _ _ => simp only [List.mem_map]; rintro _ ⟨d, _, rfl⟩; omega

/-- R167: the largest sum of `|c| + |omega(|c|)|`, over all tree shapes. -/
theorem TreeDepths.cost_le {l : List Nat} (h : TreeDepths l) : ∀ k, l.length + k ≤ 128 →
    (l.map fun d => leafBits (d + k)).sum ≤ treeBits l.length k := by
  induction h with
  | leaf =>
    intro k hk
    simp only [List.map_cons, List.map_nil, List.sum_cons, List.sum_nil, List.length_cons,
      List.length_nil, treeBits, combBits]
    rw [show 0 + k = k by omega, show k + (0 + 1) - 1 = k by omega]; omega
  | node hl hr ihl ihr =>
    rename_i l r
    intro k hk
    simp only [List.length_map, List.length_append] at hk ⊢
    have pl := hl.length_pos
    have pr := hr.length_pos
    have := treeBits_split pl pr hk
    have h1 := ihl (k + 1) (by omega)
    have h2 := ihr (k + 1) (by omega)
    simp only [List.map_map, Function.comp_def, List.map_append, List.sum_append,
      show ∀ d, d + 1 + k = d + (k + 1) from fun d => by omega]
    omega

end Sys2Proof.Laws
end

