-- ==== Sys2Proof/Laws/HeaderSize.lean ====
section
/-! SUPPORT. The size bounds of 43_header_format.md R167: the code words of a text are the leaves of a
merge tree, no header is longer than `maxHeaderBits`, and one is that long. -/

namespace Sys2Proof.Laws

open Sys2Proof Sys2Proof.Machine

/-! ### The builder makes a merge tree (R164) -/

/-- The lengths of the code words, in order. -/
def wordLengths (es : List CodeEntry) : List Nat := es.map fun e => e.2.length

theorem huffInsert_perm (n : HuffNode) : ∀ q, (huffInsert n q).Perm (n :: q)
  | [] => .refl _
  | m :: rest => by
    simp only [huffInsert]; split
    · exact .refl _
    · exact ((huffInsert_perm n rest).cons m).trans (.swap n m rest)

/-- The symbols a queue subsumes. -/
def queueSymbols (q : List HuffNode) : List Nat := q.flatMap fun n => n.label.map Prod.fst

theorem queueSymbols_perm {q q' : List HuffNode} (h : q.Perm q') :
    (queueSymbols q).Perm (queueSymbols q') := h.flatMap_right _

/-- Every node of the queue has the code words of a merge tree. -/
def TreeQueue (q : List HuffNode) : Prop := ∀ n ∈ q, TreeDepths (wordLengths n.label)

theorem TreeQueue.perm {q q' : List HuffNode} (h : TreeQueue q) (p : q'.Perm q) : TreeQueue q' :=
  fun n hn => h n (p.mem_iff.mp hn)

theorem huffSeeds_spec : ∀ (fs : List (Nat × Nat)) (seq : Nat),
    (huffSeeds seq fs).length = fs.length ∧ TreeQueue (huffSeeds seq fs) ∧
      (queueSymbols (huffSeeds seq fs)).Perm (fs.map Prod.fst)
  | [], _ => ⟨rfl, by simp [TreeQueue, huffSeeds], .refl _⟩
  | (s, c) :: rest, seq => by
    obtain ⟨hl, ht, hp⟩ := huffSeeds_spec rest (seq + 1)
    have p := huffInsert_perm { label := [(s, [])], weight := c, seq := seq } (huffSeeds (seq + 1) rest)
    refine ⟨by simpa [huffSeeds, hl] using p.length_eq, TreeQueue.perm ?_ p, ?_⟩
    · rintro n hn
      obtain rfl | hn := List.mem_cons.mp hn
      · exact .leaf
      · exact ht n hn
    · exact (queueSymbols_perm p).trans (by simpa [queueSymbols] using hp)

@[simp] theorem map_fst_prependBit (b : Bool) (l : List CodeEntry) :
    (prependBit b l).map Prod.fst = l.map Prod.fst := by simp [prependBit, Function.comp_def]

@[simp] theorem wordLengths_prependBit (b : Bool) (l : List CodeEntry) :
    wordLengths (prependBit b l) = (wordLengths l).map (· + 1) := by
  simp [wordLengths, prependBit, Function.comp_def]

theorem huffMerge_spec : ∀ (fuel seq : Nat) (q : List HuffNode), q ≠ [] → q.length ≤ fuel + 1 →
    TreeQueue q →
    TreeDepths (wordLengths (huffMerge fuel seq q)) ∧
      ((huffMerge fuel seq q).map Prod.fst).Perm (queueSymbols q)
  | _, _, [], h, _, _ => absurd rfl h
  | 0, _, [a], _, _, ht => ⟨ht a (by simp), by simp [huffMerge, queueSymbols]⟩
  | fuel + 1, _, [a], _, _, ht => ⟨ht a (by simp), by simp [huffMerge, queueSymbols]⟩
  | 0, _, a :: b :: rest, _, hf, _ => by simp at hf
  | fuel + 1, seq, a :: b :: rest, _, hf, ht => by
    rw [huffMerge]
    have p := huffInsert_perm
      { label := prependBit false a.label ++ prependBit true b.label
        weight := a.weight + b.weight, seq := seq } rest
    have hl := p.length_eq
    obtain ⟨h1, h2⟩ := huffMerge_spec fuel (seq + 1) _ (List.ne_nil_of_length_pos (by simp [hl]))
      (by simp only [List.length_cons] at hl hf; omega) (TreeQueue.perm (by
        rintro n hn
        obtain rfl | hn := List.mem_cons.mp hn
        · have := TreeDepths.node (ht a (by simp)) (ht b (by simp))
          simpa [wordLengths, prependBit, Function.comp_def] using this
        · exact ht n (by simp [hn])) p)
    exact ⟨h1, h2.trans ((queueSymbols_perm p).trans (by simp [queueSymbols]))⟩

/-- Looking the symbols up in a label without repeats gives the label's entries. -/
theorem filterMap_find_perm {ks : List Nat} {m : List CodeEntry} (h : (m.map Prod.fst).Perm ks)
    (hn : ks.Nodup) : (ks.filterMap fun k => m.find? fun e => e.1 == k).Perm m := by
  have hn' := (h.nodup_iff).mpr hn
  refine (h.symm.filterMap _).trans ?_
  rw [List.filterMap_map]
  have : ∀ e ∈ m, m.find? (fun e' => e'.1 == e.1) = some e := by
    intro e he
    rw [List.find?_eq_some_iff_append]
    obtain ⟨as, bs, rfl⟩ := List.append_of_mem he
    refine ⟨by simp, as, bs, rfl, ?_⟩
    intro a ha
    simp only [List.map_append, List.map_cons, List.nodup_append, List.mem_map] at hn'
    simpa using hn'.2.2 a.1 ⟨a, ha, rfl⟩ e.1 (by simp)
  rw [List.filterMap_congr (g := some) (by simpa [Function.comp_def] using this)]
  simp

theorem frequencies_symbols (text : List Nat) :
    ((frequencies text).map Prod.fst).Nodup ∧ (∀ p ∈ frequencies text, p.1 < 128) ∧
      (frequencies text).length ≤ 128 := by
  refine ⟨?_, ?_, ?_⟩
  · refine List.Sublist.nodup (List.filter_sublist.map Prod.fst) ?_
    simpa [List.map_map, Function.comp_def] using List.nodup_range
  · simp only [frequencies, List.mem_filter, List.mem_map, List.mem_range]
    rintro _ ⟨⟨s, hs, rfl⟩, _⟩; exact hs
  · refine (List.length_filter_le _ _).trans ?_
    simp [nSym]

/-- What the code words of a text are (R164): none without a symbol; "0" for a single one; otherwise, up
to their order, the leaves of a merge tree. -/
theorem codeWords_spec (text : List Nat) :
    ((codeWords text).map Prod.fst).Perm ((frequencies text).map Prod.fst) ∧
    (codeWords text = [] ∨ (∃ s, codeWords text = [(s, [false])]) ∨
      2 ≤ (codeWords text).length ∧
        ∃ m, (codeWords text).Perm m ∧ TreeDepths (wordLengths m)) := by
  have hn := (frequencies_symbols text).1
  rw [codeWords]
  split
  · next s c h => exact ⟨by simp [h], .inr (.inl ⟨s, rfl⟩)⟩
  · next h =>
    revert hn h
    generalize frequencies text = fs
    intro hn h
    obtain rfl | hfs := eq_or_ne fs []
    · exact ⟨.refl _, .inl rfl⟩
    obtain ⟨hl, ht, hp⟩ := huffSeeds_spec fs 0
    obtain ⟨h1, h2⟩ := huffMerge_spec (huffSeeds 0 fs).length (huffSeeds 0 fs).length (huffSeeds 0 fs)
      (by rw [← List.length_pos_iff, hl]; exact List.length_pos_iff.mpr hfs) (by omega) ht
    have p := filterMap_find_perm (h2.trans hp) hn
    rw [List.filterMap_map] at p
    refine ⟨(p.map Prod.fst).trans (h2.trans hp), .inr (.inr ⟨?_, _, p, h1⟩)⟩
    have := (p.map Prod.fst).trans (h2.trans hp) |>.length_eq
    simp only [List.length_map] at this
    refine this ▸ ?_
    match fs, hfs, h with
    | [(s, c)], _, h => exact absurd rfl (h s c)
    | _ :: _ :: _, _, _ => simp

/-! ### The bounds of R167 -/

theorem codeWords_symbols (text : List Nat) :
    (codeWords text).length ≤ 128 ∧ ∀ e ∈ codeWords text, e.1 < 128 := by
  have p := (codeWords_spec text).1
  obtain ⟨_, hs, hl⟩ := frequencies_symbols text
  refine ⟨by simpa using (p.length_eq.trans (by simp)).trans_le hl, fun e he => ?_⟩
  obtain ⟨q, hq, h⟩ := List.mem_map.mp (p.mem_iff.mp (List.mem_map_of_mem he))
  exact h ▸ hs q hq

/-- R167: with two symbols or more, a code word has at most `U - 1` bits. The word "0" of a single symbol
has one (R164 step 2; log entry 22). -/
theorem codeWord_length_le (text : List Nat) : ∀ e ∈ codeWords text,
    1 ≤ e.2.length ∧ e.2.length ≤ max 1 ((codeWords text).length - 1) ∧ e.2.length ≤ 127 := by
  obtain ⟨hU, _⟩ := codeWords_symbols text
  obtain h | ⟨s, h⟩ | ⟨h2, m, p, ht⟩ := (codeWords_spec text).2
  · simp [h]
  · simp [h]
  · intro e he
    have hm : e.2.length ∈ wordLengths m := List.mem_map_of_mem (p.mem_iff.mp he)
    have hl : (wordLengths m).length = (codeWords text).length := by simp [wordLengths, p.length_eq]
    have := ht.depth_pos (by omega) _ hm
    have := ht.depth_lt _ hm
    omega

/-- R167: `|omega(U)| <= 14` for `U <= 128`. -/
theorem length_omega_count : ∀ U < 129, 1 ≤ U → (omega U).any (fun o => o.length ≤ 14) = true := by
  decide +kernel

/-- R167: `|omega(|c|)| <= 13` for a code word `c`. -/
theorem omegaBits_le (d : Nat) : omegaBits d ≤ 13 := by
  have := omegaBits_cases d
  omega

theorem entriesBits_length : ∀ es : List CodeEntry,
    (∀ e ∈ es, e.1 < 128 ∧ 1 ≤ e.2.length ∧ e.2.length < 128) →
    ∃ b, entriesBits es = some b ∧ b.length = 7 * es.length + ((wordLengths es).map leafBits).sum
  | [], _ => ⟨[], rfl, rfl⟩
  | e :: es, h => by
    obtain ⟨b, hb, hl⟩ := entriesBits_length es fun e' he' => h e' (by simp [he'])
    obtain ⟨h1, h2, h3⟩ := h e (by simp)
    obtain ⟨o, ho, hol⟩ := Option.map_eq_some_iff.mp (length_omega_of_lt _ h3 h2)
    refine ⟨fixed e.1 7 ++ o ++ e.2 ++ b, by simp [entriesBits, entryBits, fix7_of_lt h1, ho, hb], ?_⟩
    simp only [List.length_append, length_fixed, hl, hol, wordLengths, List.map_cons, List.sum_cons,
      List.length_cons, leafBits]
    omega

/-- The largest sum of R167, plus `14 + 7 * U`, is 10657 at `U = 128` and no more below. -/
theorem treeBits_le : ∀ U < 129, 2 ≤ U → 14 + 7 * U + treeBits U 0 ≤ maxHeaderBits := by
  decide +kernel

/-- R167: a text with a symbol of the alphabet has a header, of 10657 bits at most. -/
theorem header_length_le (text : List Nat) (h : codeWords text ≠ []) :
    ∃ b, header (codeWords text) = some b ∧ b.length ≤ maxHeaderBits := by
  obtain ⟨hU, hs⟩ := codeWords_symbols text
  have hpos := List.length_pos_iff.mpr h
  have hw := codeWord_length_le text
  obtain ⟨b, hb, hl⟩ := entriesBits_length (codeWords text) fun e he =>
    ⟨hs e he, (hw e he).1, by have := (hw e he).2.2; omega⟩
  obtain ⟨o, ho, hol⟩ := (Option.any_eq_true _ _).mp (length_omega_count _ (by omega) hpos)
  refine ⟨o ++ b, by simp [header, ho, hb], ?_⟩
  rw [List.length_append, hl]
  have hol : o.length ≤ 14 := of_decide_eq_true hol
  obtain h' | ⟨s, h'⟩ | ⟨h2, m, p, ht⟩ := (codeWords_spec text).2
  · exact absurd h' h
  · simp only [h', wordLengths, List.map_cons, List.map_nil, List.length_cons, List.length_nil,
      List.sum_cons, List.sum_nil, leafBits, maxHeaderBits]
    have := omegaBits_le (0 + 1)
    omega
  · have hm : (wordLengths m).length = (codeWords text).length := by simp [wordLengths, p.length_eq]
    have hc : ((wordLengths m).map leafBits).sum ≤ treeBits (codeWords text).length 0 :=
      hm ▸ ht.cost_le 0 (by omega)
    have hp : ((wordLengths (codeWords text)).map leafBits).sum = ((wordLengths m).map leafBits).sum :=
      ((p.map _).map _).sum_eq
    have := treeBits_le _ (by omega) h2
    omega

/-- R167: every header fits when `BUF_CAP >= 10657`: what a Host concludes from `CAPR`. -/
theorem everyHeaderFits_sound {capr : RegWord} (hc : everyHeaderFits capr = true) (text : List Nat)
    (h : codeWords text ≠ []) : headerFits capr (codeWords text) = true := by
  obtain ⟨b, hb, hl⟩ := header_length_le text h
  have hc : maxHeaderBits ≤ capr.toNat := of_decide_eq_true hc
  simp only [headerFits, hb, Option.any_some, decide_eq_true_eq]
  omega

/-- R167: the default `BUF_CAP = 16384` satisfies it. -/
theorem everyHeaderFits_default : everyHeaderFits (readReg State.reset 0x3#4) = true := by decide

/-! ### A header of 10657 bits (R167) -/

/-- Each number `s` below `n`, `2^s` times. -/
def powerText (n : Nat) : List Nat := (List.range n).flatMap fun s => List.replicate (2 ^ s) s

theorem count_powerText (s n : Nat) : (powerText n).count s = if s < n then 2 ^ s else 0 := by
  induction n with
  | zero => simp [powerText]
  | succ n ih =>
    have : powerText (n + 1) = powerText n ++ List.replicate (2 ^ n) n := by
      simp [powerText, List.range_succ]
    rw [this, List.count_append, ih, List.count_replicate]
    obtain h | rfl | h := Nat.lt_trichotomy s n
    · simp [h, show ¬n = s by omega, show s < n + 1 by omega]
    · simp
    · simp [show ¬n = s by omega, show ¬s < n by omega, show ¬s < n + 1 by omega]

theorem frequencies_powerText : frequencies (powerText nSym) = (List.range nSym).map fun s => (s, 2 ^ s) := by
  rw [frequencies, List.map_congr_left (g := fun s => (s, 2 ^ s))
    (fun s hs => by rw [count_powerText, if_pos (List.mem_range.mp hs)]), List.filter_eq_self]
  simp

/-- The depths of that text's merge tree: 127, 127, 126, ..., 2, 1. -/
theorem wordLengths_powerText :
    wordLengths (codeWords (powerText nSym)) = 127 :: (List.range 127).map (127 - ·) := by
  have : codeWords (powerText nSym) =
      let fs := (List.range nSym).map fun s => (s, 2 ^ s)
      let merged := huffMerge nSym nSym (huffSeeds 0 fs)
      fs.filterMap fun p => merged.find? fun e => e.1 == p.1 := by
    rw [codeWords, frequencies_powerText]; rfl
  rw [this]
  decide +kernel

/-- Any entries with those word lengths have a header of 10657 bits. -/
theorem header_comb_length {es : List CodeEntry} (hs : ∀ e ∈ es, e.1 < 128)
    (hw : wordLengths es = 127 :: (List.range 127).map (127 - ·)) :
    ∃ b, header es = some b ∧ b.length = maxHeaderBits := by
  have hU : es.length = 128 := by simpa [wordLengths] using congrArg List.length hw
  obtain ⟨b, hb, hl⟩ := entriesBits_length es fun e he => by
    have : e.2.length ∈ wordLengths es := List.mem_map_of_mem he
    rw [hw] at this
    simp only [List.mem_cons, List.mem_map, List.mem_range] at this
    refine ⟨hs e he, ?_⟩
    obtain h | ⟨i, hi, h⟩ := this <;> omega
  obtain ⟨o, ho, hol⟩ := Option.map_eq_some_iff.mp
    (show (omega 128).map List.length = some 14 by decide +kernel)
  refine ⟨o ++ b, by simp only [header, hU, ho, hb], ?_⟩
  rw [List.length_append, hl, hol, hU, hw]
  decide +kernel

/-- R167: the longest header of all, 10657 bits, is the header of a text. -/
theorem header_powerText_length :
    ∃ b, header (codeWords (powerText nSym)) = some b ∧ b.length = maxHeaderBits :=
  header_comb_length (codeWords_symbols _).2 wordLengths_powerText

end Sys2Proof.Laws
end

