-- ==== Sys2Proof/Laws/PerInstr.lean ====
section
/-! SUPPORT. Per-instruction families of statements about instructions as syntax. -/

namespace Sys2Proof.Laws

/-- The fields of `enc` (30_encoding.md R70), read back bit by bit. -/
theorem opField_enc (op : BitVec 4) (lm1 : BitVec 5) (d : Operand) : opField (enc op lm1 d) = op := by
  ext i hi
  simp only [opField, enc, BitVec.getElem_extractLsb', BitVec.getLsbD_or, BitVec.getLsbD_shiftLeft,
    BitVec.getLsbD_setWidth]
  have h1 : lm1.getLsbD (60 + i - 32) = false := BitVec.getLsbD_of_ge _ _ (by omega)
  have h2 : d.getLsbD (60 + i) = false := BitVec.getLsbD_of_ge _ _ (by omega)
  rw [h1, h2]
  simp only [BitVec.getLsbD_eq_getElem, hi, Bool.and_false, Bool.or_false, show 60 + i < 64 by omega,
    show 60 + i - 60 = i by omega, show ¬60 + i < 60 by omega, show i < 64 by omega, decide_true, decide_false,
    Bool.not_false, Bool.true_and]

theorem rsvField_enc (op : BitVec 4) (lm1 : BitVec 5) (d : Operand) : rsvField (enc op lm1 d) = 0#23 := by
  ext i hi
  simp only [rsvField, enc, BitVec.getElem_extractLsb', BitVec.getLsbD_or, BitVec.getLsbD_shiftLeft,
    BitVec.getLsbD_setWidth]
  have h1 : lm1.getLsbD (37 + i - 32) = false := BitVec.getLsbD_of_ge _ _ (by omega)
  have h2 : d.getLsbD (37 + i) = false := BitVec.getLsbD_of_ge _ _ (by omega)
  rw [h1, h2]
  simp [show 37 + i < 60 by omega]

theorem lm1Field_enc (op : BitVec 4) (lm1 : BitVec 5) (d : Operand) : lm1Field (enc op lm1 d) = lm1 := by
  ext i hi
  simp only [lm1Field, enc, BitVec.getElem_extractLsb', BitVec.getLsbD_or, BitVec.getLsbD_shiftLeft,
    BitVec.getLsbD_setWidth]
  have h2 : d.getLsbD (32 + i) = false := BitVec.getLsbD_of_ge _ _ (by omega)
  rw [h2]
  simp only [BitVec.getLsbD_eq_getElem, hi, Bool.and_false, Bool.or_false, show 32 + i < 64 by omega,
    show 32 + i - 32 = i by omega, show 32 + i < 60 by omega, show ¬32 + i < 32 by omega, show i < 64 by omega,
    decide_true, decide_false, Bool.not_false, Bool.not_true, Bool.true_and, Bool.and_true, Bool.false_and,
    Bool.false_or]

theorem dField_enc (op : BitVec 4) (lm1 : BitVec 5) (d : Operand) : dField (enc op lm1 d) = d := by
  ext i hi
  simp only [dField, enc, BitVec.getElem_extractLsb', BitVec.getLsbD_or, BitVec.getLsbD_shiftLeft,
    BitVec.getLsbD_setWidth]
  simp [BitVec.getLsbD_eq_getElem, hi, show i < 60 by omega, show i < 64 by omega]

/-- Family `Opcode`: the word of an instruction has its opcode in `OP` (R73) and 0 in `RSV` (R70). -/
def Opcode.Statement (i : Instr) : Prop :=
  opField (encode i) = opcode i ∧ rsvField (encode i) = 0#23

theorem Opcode.nop : Opcode.Statement .nop := ⟨opField_enc _ _ _, rsvField_enc _ _ _⟩
theorem Opcode.openC : Opcode.Statement .openC := ⟨opField_enc _ _ _, rsvField_enc _ _ _⟩
theorem Opcode.omega (n : Operand) : Opcode.Statement (.omega n) :=
  ⟨opField_enc _ _ _, rsvField_enc _ _ _⟩
theorem Opcode.fix7 (v : Operand) : Opcode.Statement (.fix7 v) :=
  ⟨opField_enc _ _ _, rsvField_enc _ _ _⟩
theorem Opcode.bits (lm1 : BitVec 5) (d : Operand) : Opcode.Statement (.bits lm1 d) :=
  ⟨opField_enc _ _ _, rsvField_enc _ _ _⟩
theorem Opcode.commit : Opcode.Statement .commit := ⟨opField_enc _ _ _, rsvField_enc _ _ _⟩
theorem Opcode.abort : Opcode.Statement .abort := ⟨opField_enc _ _ _, rsvField_enc _ _ _⟩

end Sys2Proof.Laws
end

