-- ==== Sys2Proof/Tests/Slice0.lean ====
section
/-! SUPPORT. Tests: expected values from 95_test_vectors.md and the rules' own examples, each named by its
vector; the smoke test of WellFormed; and for every obligation with hypotheses a witness that meets them. -/

open Sys2Proof Sys2Proof.Machine Sys2Proof.Claims

namespace Sys2Proof.Tests

/-- A state with the stream `buf` and room for `cap` bits. -/
def mk (cap : Nat) (ctl : Ctl) (err : ErrCode) (buf : Bits) (lastlen : Nat) : State :=
  { State.resetOf { bufCap := cap } with
    ctl := ctl, err := err, buf := buf, blen := buf.length, lastlen := lastlen }

/-- OPEN with nothing appended. -/
def opened : State := mk 16384 .opened .noError [] 0

/-- OPEN with the stream "1". -/
def openedOne : State := mk 16384 .opened .noError [true] 1

/-- DONE after delivering "1". -/
def doneOne : State := { mk 16384 .done .noError [true] 1 with sinkLog := [[true]] }

/-- ERROR with code 4. -/
def failed : State := mk 16384 .error .unsupportedSymbol [] 0

/-- A full buffer of 43 bits. -/
def full : State := mk 43 .opened .noError (List.replicate 43 true) 43

/-- The next state, if there is one. -/
def answer : Host.Outcome State Fault Refusal → Option State
  | .next s => some s
  | .fault _ => none
  | .refused _ => none

/-- A state with a word as the Host's next operation. -/
def withWord (s : State) (w : CmdWord) : State := { s with pending := [.cmd w] }

/-- What a step on the word leaves of the stream, STATUS, LASTLEN and the Sink log. -/
def after (s : State) (w : CmdWord) : Option (Bits × RegWord × Nat × List Bits) :=
  (answer (step (withWord s w))).map fun t => (t.stream, readReg t 0x0#4, t.lastlen, t.sinkLog)

/-! ### WellFormed: the one check, refused on an ill-formed term (30_encoding.md R74; vectors B11, B12) -/

theorem test_wellFormed_refuses_payload_at_len : (Instr.bits 0#5 0x2#32).wellFormed = false := by decide
theorem test_wellFormed_refuses_payload_above_len : (Instr.bits 1#5 0x4#32).wellFormed = false := by decide
theorem test_wellFormed_accepts_full_payload : (Instr.bits 31#5 0xFFFFFFFF#32).wellFormed = true := by decide
theorem test_wellFormed_accepts_operand_errors :
    (Instr.omega 0#32).wellFormed = true ∧ (Instr.fix7 0xFFFFFFFF#32).wellFormed = true := by decide

/-! ### Decode: words written out from R70, R71, R73 -/

theorem test_decode_nop : decode 0x0000000000000000#64 = .legal .nop := by decide
theorem test_decode_open : decode 0x1000000000000000#64 = .legal .openC := by decide
/-- `0010`, 28 zeros, then 1000 in binary: vector O18. -/
theorem test_decode_omega :
    decode 0b0010000000000000000000000000000000000000000000000000001111101000#64 = .legal (.omega 1000#32) := by
  decide
/-- `0011`, 28 zeros, then 97 in binary: vector F4. -/
theorem test_decode_fix7 :
    decode 0b0011000000000000000000000000000000000000000000000000000001100001#64 = .legal (.fix7 97#32) := by
  decide
/-- `0100`, 23 zeros, `00110` (len 7), then 0x61 in binary: vector B5. -/
theorem test_decode_bits :
    decode 0b0100000000000000000000000000011000000000000000000000000001100001#64 =
      .legal (.bits 6#5 0x61#32) := by decide
theorem test_decode_commit : decode 0x5000000000000000#64 = .legal .commit := by decide
theorem test_decode_abort : decode 0x6000000000000000#64 = .legal .abort := by decide
theorem test_decode_reserved_opcode : decode 0x7000000000000000#64 = .illegal (.reservedOpcode 7#4) := by decide
/-- Vector B13. -/
theorem test_decode_reserved_bit_37 : decode 0x4000002000000000#64 = .illegal .reservedField := by decide
/-- Vector O29. -/
theorem test_decode_omega_lm1 : decode 0x2000000100000001#64 = .illegal .unusedField := by decide
/-- Vector B11. -/
theorem test_decode_bits_payload : decode 0x4000000000000002#64 = .illegal .payloadAboveLength := by decide
/-- Vector B9. -/
theorem test_encode_bits : encode (.bits 31#5 0xFFFFFFFF#32) = 0x4000001FFFFFFFFF#64 := by decide
theorem test_decodeTableWord : decodeTableWord 64 0x2000000000000004 = some (.omega 4#32) := by decide

/-! ### Commands -/

/-- Vector O4. -/
theorem test_omega_4 : after opened 0x2000000000000004#64 =
    some ([false, false, false, true, false, false], 0x00000001#32, 6, []) := by decide
/-- Vector O24. -/
theorem test_omega_0 : after opened 0x2000000000000000#64 = some ([], 0x00000033#32, 0, []) := by decide
/-- Vector F4. -/
theorem test_fix7_97 : after opened 0x3000000000000061#64 =
    some ([true, true, false, false, false, false, true], 0x00000001#32, 7, []) := by decide
/-- Vector F8. -/
theorem test_fix7_whole_operand : after openedOne 0x30000000FFFFFFFF#64 =
    some ([], 0x00000043#32, 1, []) := by decide
/-- Vector B4, after "1": leading zeros are kept. -/
theorem test_bits_leading_zeros : after openedOne 0x4000000200000001#64 =
    some ([true, false, false, true], 0x00000001#32, 3, []) := by decide
/-- Vector B15, program P6 line 3. -/
theorem test_bits_overflow : after full 0x4000000000000000#64 = some ([], 0x00000063#32, 43, []) := by decide
/-- Vector K7. -/
theorem test_commit_delivers : after openedOne 0x5000000000000000#64 =
    some ([true], 0x00000002#32, 1, [[true]]) := by decide
/-- Vector K10. -/
theorem test_commit_twice : after doneOne 0x5000000000000000#64 =
    some ([], 0x00000023#32, 1, [[true]]) := by decide
/-- Vector K4. -/
theorem test_open_in_error : after failed 0x1000000000000000#64 = some ([], 0x00000001#32, 0, []) := by decide
/-- Vector K13. -/
theorem test_abort_keeps_err : after failed 0x6000000000000000#64 = some ([], 0x00000040#32, 0, []) := by decide
/-- Vector K2. -/
theorem test_nop_in_error : answer (step (withWord failed 0#64)) = some failed := by decide
/-- Vector K3. -/
theorem test_illegal_nop : after opened 0x0000000000000001#64 = some ([], 0x00000013#32, 0, []) := by decide
/-- Vector K16. -/
theorem test_illegal_ignored_in_error :
    answer (step (withWord failed 0xF000000000000000#64)) = some failed := by decide

/-! ### Codec, registers, sink port, assembler, header -/

/-- Vectors O18 and O23 (length). -/
theorem test_omega_1000 : omega 1000 = some [false, false, true, false, false, false, true,
    true, true, true, true, true, false, true, false, false, false] := by decide
theorem test_omega_largest : (omega 4294967295).map List.length = some 43 := by decide
/-- Decoder checks of section 2.1. -/
theorem test_omegaDecode_truncated : omegaDecode [false, false, true, false, false] 0 = .error .truncated := by
  decide
theorem test_omegaDecode_three : omegaDecode [false, true, true, true, false] 0 = .ok (3, 3) := by decide
/-- Vector Q2 at the default. -/
theorem test_capr : readReg State.reset 0x3#4 = 0x00004000#32 := by decide
/-- Vector Q6 (LASTLENR 1). -/
theorem test_lastlenr : readReg doneOne 0x2#4 = 1#32 := by decide
/-- Vector W5. -/
theorem test_pack_w5 : pack ([true] ++ List.replicate 6 false ++ [true, true]) = [0x81#8, 0x80#8] := by decide
/-- Chunking example of section 2.3. -/
theorem test_assemble_cw :
    assembleText "cw \"1010101010101010101010101010101011110000\" ; 40 bits".toList =
      some [0x4000001FAAAAAAAA#64, 0x40000007000000F0#64] := by decide +kernel
theorem test_disassemble_bits :
    disassemble 0x4000001E7FFFFFFF#64 = "bits 31, 0x7FFFFFFF".toList := by decide +kernel
/-- Program P3: the text "abbccc". -/
theorem test_codeWords_abbccc : codeWords [97, 98, 98, 99, 99, 99] =
    [(97, [true, false]), (98, [true, true]), (99, [false])] := by decide +kernel
/-- Program P1: the header of "aaaa". -/
theorem test_header_aaaa : header [(97, [false])] =
    some [true, true, true, false, false, false, false, true, true, false] := by decide
/-- Program P1 with the poll of R162: STATUS 2, BLENR 10, one Sink log entry. -/
theorem test_buildHeader_aaaa :
    buildHeader 3 [(97, [false])] State.reset = some (.next
      { mk 16384 .done .noError [true, true, true, false, false, false, false, true, true, false] 1 with
        reads := [0x00000002#32]
        sinkLog := [[true, true, true, false, false, false, false, true, true, false]] }) := rfl
/-- Program P1, R166 item 1. -/
theorem test_roundTrip_aaaa : HeaderRoundTrip [(97, [false])] State.reset :=
  ⟨_, _, rfl, rfl, by decide⟩
/-- R167: the boundary of the Host's check. -/
theorem test_everyHeaderFits : everyHeaderFits 10657#32 = true ∧ everyHeaderFits 10656#32 = false := by
  decide
theorem test_parseHeader_aaaa :
    parseHeader [true, true, true, false, false, false, false, true, true, false] = .ok [(97, [false])] := by
  decide

/-- R163: the Host's own checks. -/
theorem test_construct_empty : construct [] = .error .invalidInput := by decide
theorem test_construct_symbol_128 : construct [97, 128] = .error .unsupportedSymbol := by decide
/-- The artifact of vector W5, after an earlier one (R56). -/
theorem test_artifact_replaces : storedArtifact none [[true], [true] ++ List.replicate 6 false ++ [true, true]] =
    some ['1', '0', '0', '0', '0', '0', '0', '1', '1'] := by decide

/-- Pins with a command word offered and nothing else. -/
def offering (w : CmdWord) : PortIn := ⟨false, true, w, false, 0#4, false⟩

/-- No input pin is raised; the Sink is ready or not. -/
def quiet (snkReady : Bool) : PortIn := ⟨false, false, 0#64, false, 0#4, snkReady⟩

/-- The pins while "1" is being delivered. -/
def sendingOne : PortState :=
  { core := openedOne, work := .sending 0x5000000000000000#64 0, offered := none, asked := none, received := [] }

/-- The pins with no command in progress. -/
def readyOne : PortState := { sendingOne with work := .ready }

/-- Vector K7 at the pins: the one beat is 80/1. -/
theorem test_port_beat : snkBeat sendingOne (quiet false) =
    some { data := 0x80#8, nbits := 1#4, first := true, last := true, bitlen := 1#32 } := by decide

/-! ### Witnesses: states and operands that meet the hypotheses of the obligations -/

theorem specInv_openedOne : SpecInv openedOne :=
  ⟨by decide, by decide, by decide, by decide, by decide⟩
theorem specInv_reset : SpecInv State.reset := ⟨by decide, by decide, by decide, by decide, by decide⟩
theorem specInv_doneOne : SpecInv doneOne := ⟨by decide, by decide, by decide, by decide, by decide⟩
theorem bufForm_openedOne : BufForm openedOne := ⟨by decide, by decide⟩
theorem lastLenInv_openedOne : LastLenInv openedOne := ⟨by decide, by decide, by decide⟩
theorem deliveredInv_doneOne : DeliveredInv doneOne := ⟨by decide⟩
theorem portInv_sendingOne : PortInv sendingOne := ⟨bufForm_openedOne,
  (by decide : delivers 0x5000000000000000#64 openedOne = true ∧ 0 < beatCount openedOne.stream.length ∧
    ([] : List Beat) = (beats openedOne.stream).take 0)⟩
theorem portInv_readyOne : PortInv readyOne := ⟨bufForm_openedOne, (rfl : readyOne.received = [])⟩

theorem witness_LegalExactlyByPredicate :
    ¬LegalWord 0x7000000000000000#64 ∧ opened.ctl ≠ .error ∧ failed.ctl = .error := by
  unfold LegalWord; decide
theorem witness_ReservedWordsAreIllegal :
    0x7 ≤ (opField 0x7000000000000000#64).toNat ∧ rsvField 0x4000002000000000#64 ≠ 0#23 ∧
    (opField 0x2000000100000001#64 ≠ 0x4#4 ∧ lm1Field 0x2000000100000001#64 ≠ 0#5) ∧
    ((opField 0x1000000000000001#64).toNat ∈ [0x0, 0x1, 0x5, 0x6] ∧ dField 0x1000000000000001#64 ≠ 0#32) ∧
    (opField 0x4000000000000002#64 = 0x4#4 ∧ (lm1Field 0x4000000000000002#64).toNat + 1 ≤ 1 ∧
      (dField 0x4000000000000002#64).getLsbD 1 = true) := by decide
theorem witness_DecodeOfEncodeIsTheInstruction : (Instr.bits 31#5 0x80000001#32).wellFormed = true := by decide
theorem witness_EncodeOfDecodeIsTheWord :
    decode 0x4000001F80000001#64 = .legal (.bits 31#5 0x80000001#32) := by decide
theorem witness_DecodeFollowsTheOpcodeTable :
    (∃ r ∈ opcodeTable, r.matches 0x20000000FFFFFFFF#64 = true ∧ r.mnemonic ≠ "bits") ∧
    (∃ r ∈ opcodeTable, r.matches 0x4000000000000002#64 = true ∧ r.mnemonic = "bits") := by decide
theorem witness_StepRunsTheDecodedCommand :
    (withWord opened 0x20000000FFFFFFFF#64).pending = .cmd 0x20000000FFFFFFFF#64 :: [] ∧
    decode 0x20000000FFFFFFFF#64 = .legal (.omega 0xFFFFFFFF#32) ∧
    decode 0xFFFFFFFFFFFFFFFF#64 = .illegal (.reservedOpcode 15#4) ∧ opened.pending = [] ∧
    decode (BitVec.ofNat 64 0x20000000FFFFFFFF) = .legal (.omega 0xFFFFFFFF#32) ∧
    ({ failed with pending := [.reset] } : State).pending = .reset :: [] := by decide
theorem witness_ReadSeesExactlyTheOperationsBeforeIt :
    ({ opened with pending := [.cmd 0x2000000000000001#64, .read 0x1#4, .reset] } : State).pending =
      [.cmd 0x2000000000000001#64] ++ .read 0x1#4 :: [.reset] := by decide
theorem witness_ResetLeavesTheResetState :
    ({ failed with pending := [.reset] } : State).pending = .reset :: [] := by decide
theorem witness_SpecInvariantAlwaysHolds : ∃ t, SpecInv openedOne ∧ step openedOne = .next t :=
  ⟨_, specInv_openedOne, rfl⟩
theorem witness_StepKeepsTheBufferForm : ∃ t, BufForm openedOne ∧ step openedOne = .next t :=
  ⟨_, bufForm_openedOne, rfl⟩
theorem witness_StepKeepsTheLastLengthInvariant : ∃ t, LastLenInv openedOne ∧ step openedOne = .next t :=
  ⟨_, lastLenInv_openedOne, rfl⟩
theorem witness_DoneHoldsTheDeliveredStream : ∃ t, DeliveredInv doneOne ∧ step doneOne = .next t :=
  ⟨_, deliveredInv_doneOne, rfl⟩
theorem witness_LengthAndCapacityRegisters :
    full.cfg.legal = true ∧ SpecInv full ∧ LastLenInv full :=
  ⟨by decide, ⟨by decide, by decide, by decide, by decide, by decide⟩, ⟨by decide, by decide, by decide⟩⟩
theorem witness_ReadReturnsTheWordAndChangesNothing :
    ({ opened with pending := [.read 0x4#4] } : State).pending = .read 0x4#4 :: [] ∧
    0x4 ≤ (0x4#4 : RegAddr).toNat := by decide
theorem witness_NopChangesNothing :
    (0x0000000000000001#64 : CmdWord).toNat / 2 ^ 60 = 0x0 ∧
    (0x0000000000000001#64 : CmdWord).toNat % 2 ^ 60 ≠ 0 ∧ opened.ctl ≠ .error := by decide
theorem witness_AbortDiscardsAndKeepsErr : SpecInv State.reset ∧ State.reset.ctl = .idle :=
  ⟨specInv_reset, rfl⟩
theorem witness_CommitDeliversTheStream :
    (openedOne.ctl = .opened ∧ 1 ≤ openedOne.blen) ∧ (opened.ctl = .opened ∧ opened.blen = 0) ∧
    State.reset.ctl = .idle ∧ doneOne.ctl = .done ∧ failed.ctl = .error := by decide
theorem witness_RepeatedCommands :
    Instr.abort ∈ [Instr.nop, Instr.abort, Instr.openC] ∧
    (openedOne.ctl = .opened ∧ 1 ≤ openedOne.blen) ∧
    fragment (.bits 0#5 0#32) = some [false] ∧ openedOne.blen + 2 * 1 ≤ openedOne.cfg.bufCap ∧
    openedOne.blen ≤ openedOne.buf.length := by decide
/-- At the boundary: 43 bits fill a buffer of 43 and overflow one that holds a bit. -/
theorem witness_OmegaAppendsTheCode :
    omega (0xFFFFFFFF#32 : Operand).toNat =
      some ([false, false, false, false, false, false, false] ++ List.replicate 36 true) ∧
    (mk 43 .opened .noError [] 0).blen + 43 ≤ (mk 43 .opened .noError [] 0).cfg.bufCap ∧
    (mk 43 .opened .noError [true] 1).cfg.bufCap < (mk 43 .opened .noError [true] 1).blen + 43 ∧
    State.reset.ctl = .idle ∧ doneOne.ctl = .done ∧ failed.ctl = .error ∧ opened.ctl = .opened := by decide
/-- At the boundaries: 127 and 128; 7 bits of room and 6. -/
theorem witness_Fix7AppendsTheSymbol :
    (127#32 : Operand).toNat < 128 ∧ 128 ≤ (128#32 : Operand).toNat ∧
    (mk 43 .opened .noError (List.replicate 36 true) 36).blen + 7 ≤ 43 ∧
    43 < (mk 43 .opened .noError (List.replicate 37 true) 32).blen + 7 := by decide
/-- At the boundaries: one bit and 32 bits; a full buffer. -/
theorem witness_BitsAppendsThePayload :
    (1#32 : Operand).toNat < 2 ^ ((0#5 : BitVec 5).toNat + 1) ∧
    2 ^ ((0#5 : BitVec 5).toNat + 1) ≤ (2#32 : Operand).toNat ∧
    (0xFFFFFFFF#32 : Operand).toNat < 2 ^ ((31#5 : BitVec 5).toNat + 1) ∧
    opened.blen + ((31#5 : BitVec 5).toNat + 1) ≤ opened.cfg.bufCap ∧
    full.cfg.bufCap < full.blen + ((0#5 : BitVec 5).toNat + 1) ∧ full.ctl = .opened := by decide
theorem witness_AppendFrame :
    (∃ t, isAppend (.fix7 127#32) = true ∧ openedOne.blen ≤ openedOne.buf.length ∧
      exec (.fix7 127#32) openedOne = .next t ∧ t.ctl = .opened) ∧
    (∃ t, exec (.fix7 127#32) full = .next t ∧ t.ctl ≠ .opened) :=
  ⟨⟨_, rfl, by decide, rfl, by decide⟩, ⟨_, rfl, by decide⟩⟩
theorem witness_ControlFrame :
    ∃ t, isAppend .commit = false ∧ exec .commit openedOne = .next t ∧ t.sinkLog ≠ openedOne.sinkLog :=
  ⟨_, rfl, rfl, by decide⟩
theorem witness_OmegaLengthTable :
    (1 ≤ 4294967295 ∧ 4294967295 < 2 ^ 32) ∧ (omega 4294967295).isSome = true ∧ (omega 1).isSome = true := by decide
theorem witness_OmegaIsInvertedAndPrefixFree : omega 2 = some [false, true, false] ∧
    [false, true, false] <+: [false, true, false] := ⟨by decide, List.prefix_refl _⟩
theorem witness_StreamIsTheConcatenation :
    [Instr.omega 1#32, .fix7 0#32].map fragment = [[true], List.replicate 7 false].map some ∧
    [[true], List.replicate 7 false].flatten.length ≤ opened.cfg.bufCap ∧
    [[true], List.replicate 7 false].flatten ≠ [] := by decide
theorem witness_ChunkedAppendIsOneAppend :
    openedOne.ctl = .opened ∧ openedOne.blen ≤ openedOne.buf.length ∧
    (∀ c ∈ [List.replicate 32 true] ++ [[false]], 1 ≤ c.length ∧ c.length ≤ 32) ∧
    openedOne.blen + ([List.replicate 32 true] ++ [[false]]).flatten.length ≤ openedOne.cfg.bufCap ∧
    full.cfg.bufCap < full.blen + ([List.replicate 32 true] ++ [[false]]).flatten.length := by decide
theorem witness_PseudoInstructionExpansions :
    1 ≤ (List.replicate 33 true).length ∧
    assemble (.cw [true]) = some [0x4000000000000001#64] := by decide
theorem witness_DisassemblyAssemblesBack :
    legal 0x4000001FFFFFFFFF#64 = true ∧ legal 0xF000000000000000#64 = false := by decide
theorem witness_ErrorEntryChangesNothingElse :
    ∃ t, opened.ctl ≠ .error ∧ runWord 0x5000000000000000#64 opened = .next t ∧ t.ctl = .error :=
  ⟨_, by decide, rfl, by decide⟩
theorem witness_FirstErrorThatAppliesIsReported :
    failed.ctl = .error ∧ ¬LegalWord 0x1000000000000001#64 ∧
    decode 0x2000000000000000#64 = .legal (.omega 0#32) ∧ needsOpen (.omega 0#32) = true ∧
    Instr.omega 0#32 ∉ [Instr.nop, Instr.openC, Instr.abort] ∧
    operandError opened (.omega 0#32) = some .invalidArgument ∧ State.reset.ctl ≠ .opened ∧
    decode 0x3000000000000005#64 = .legal (.fix7 5#32) ∧ operandError full (.fix7 5#32) = none ∧
    tooLong full (.fix7 5#32) = true ∧ tooLong opened (.fix7 5#32) = false ∧ needsOpen .abort = false := by
  unfold LegalWord; decide
theorem witness_ErrorStateIsSticky :
    failed.ctl = .error ∧
    decode 0x5000000000000000#64 ∉ [Decoded.legal .nop, Decoded.legal .openC, Decoded.legal .abort] ∧
    decode 0x1000000000000000#64 = .legal .openC ∧ decode 0x6000000000000000#64 = .legal .abort ∧
    decode 0x0000000000000000#64 = .legal .nop := by decide
theorem witness_ErrorIsLeftOnlyByOpenAbortReset :
    ∃ t, failed.ctl = .error ∧ step (withWord failed 0x1000000000000000#64) = .next t ∧ t.ctl ≠ .error :=
  ⟨_, by decide, rfl, by decide⟩
theorem witness_ErrChangesOnlyAsTheRulesSay :
    (∃ t, step (withWord failed 0x1000000000000000#64) = .next t ∧ t.err ≠ failed.err) ∧
    (∃ t, step (withWord opened 0x5000000000000000#64) = .next t ∧ t.err ≠ opened.err) :=
  ⟨⟨_, rfl, by decide⟩, ⟨_, rfl, by decide⟩⟩
theorem witness_TransitionTable :
    (SpecInv State.reset ∧ State.reset.ctl = .idle) ∧ (SpecInv doneOne ∧ doneOne.ctl = .done) ∧
    (cell (rowOf full (decode 0x4000000000000000#64)) full.ctl).2 = some .overflow ∧
    (cell (rowOf opened (decode 0x4000000000000000#64)) opened.ctl).2 = none :=
  ⟨⟨specInv_reset, rfl⟩, ⟨specInv_doneOne, rfl⟩, by decide, by decide⟩
theorem witness_OnlyCommitWritesTheSink :
    ∃ t, step (withWord openedOne 0x5000000000000000#64) = .next t ∧ t.sinkLog ≠ openedOne.sinkLog :=
  ⟨_, rfl, by decide⟩
theorem witness_NoSecondWriteWithoutOpen :
    ∃ t, doneOne.ctl ≠ .opened ∧
      (∀ op ∈ (withWord doneOne 0x5000000000000000#64).pending.take 1, isOpenOp op = false) ∧
      runSteps 1 (withWord doneOne 0x5000000000000000#64) = .next t :=
  ⟨_, by decide, by decide, rfl⟩
/-- Two states that differ in a stale bit. -/
theorem witness_StaleBitsNeverShow :
    ∃ t, SameButStale { openedOne with buf := [true, true] } { openedOne with buf := [true, false] } ∧
      step { openedOne with buf := [true, true] } = .next t :=
  ⟨_, ⟨rfl, by decide⟩, rfl⟩
theorem witness_BeatsPackTheStream : 1 ≤ [true].length ∧ 0 < ([true].length + 7) / 8 := by decide
theorem witness_HostSequenceDeliversTheHeader :
    State.reset.cfg.legal = true ∧ (1 ≤ [((97 : Nat), [false])].length ∧ [((97 : Nat), [false])].length < 2 ^ 32) ∧
    (∀ e ∈ [((97 : Nat), [false])], e.1 < 128 ∧ 1 ≤ e.2.length ∧ e.2.length < 2 ^ 32) ∧
    (headerBits [(97, [false])]).length ≤ State.reset.cfg.bufCap ∧
    43 < (headerBits [(97, List.replicate 32 false)]).length := by decide
theorem witness_ParseHeaderInvertsHeader :
    header [(97, [false])] = some [true, true, true, false, false, false, false, true, true, false] ∧
    [true] <+: [true, true, true, false, false, false, false, true, true, false] :=
  ⟨by decide, ⟨_, rfl⟩⟩
theorem witness_SingleSymbolHeader : (127 < 128) ∧ (1 ≤ 1) := by decide
theorem witness_PinsRefineTheAtomicMachine :
    ∃ q, PortInv sendingOne ∧ portRun sendingOne [(quiet true, ⟨false, false⟩)] = .next q :=
  ⟨_, portInv_sendingOne, rfl⟩
theorem witness_ClockEdgeKeepsThePinInvariant :
    ∃ q, PortInv sendingOne ∧ clockEdge sendingOne (quiet true) ⟨false, false⟩ = .next q :=
  ⟨_, portInv_sendingOne, rfl⟩
theorem witness_CommandHandshake :
    (∃ q, clockEdge readyOne (offering 0#64) ⟨false, false⟩ = .next q ∧ cmdReady readyOne (offering 0#64) = true) ∧
    (∃ q, clockEdge sendingOne (offering 0#64) ⟨false, false⟩ = .next q ∧
      cmdReady sendingOne (offering 0#64) = false) ∧
    (∃ q, clockEdge { readyOne with work := .running 0x5000000000000000#64 } (quiet false) ⟨true, false⟩ =
      .next q) ∧
    (∃ q, clockEdge readyOne { quiet true with rst := true } ⟨false, false⟩ = .next q) ∧
    ({ sendingOne with offered := some 0#64 } : PortState).offered = some 0#64 ∧
    ¬((quiet true).cmdValid = true ∧ (quiet true).cmdData = 0#64) :=
  ⟨⟨_, rfl, by decide⟩, ⟨_, rfl, by decide⟩, ⟨_, rfl⟩, ⟨_, rfl⟩, rfl, by decide⟩
theorem witness_ReadHandshake :
    (∃ q v, clockEdge readyOne ⟨false, true, 0#64, true, 0x1#4, false⟩ ⟨false, true⟩ = .next q ∧
      regAck readyOne ⟨false, true, 0#64, true, 0x1#4, false⟩ ⟨false, true⟩ = some v) ∧
    regAck sendingOne ⟨false, false, 0#64, true, 0x1#4, false⟩ ⟨false, true⟩ = none ∧
    ({ sendingOne with asked := some 0x1#4 } : PortState).asked = some 0x1#4 :=
  ⟨⟨_, _, rfl, rfl⟩, by decide, rfl⟩
/-- A stream of nine bits: a first beat that is not the last, and a last one. -/
theorem witness_SinkHandshake :
    (∃ q, PortInv sendingOne ∧ (quiet true).rst = false ∧
      clockEdge sendingOne (quiet true) ⟨false, false⟩ = .next q ∧
      (snkBeat sendingOne (quiet true)).map Beat.last = some true) ∧
    (∃ q, clockEdge sendingOne (quiet false) ⟨false, false⟩ = .next q) ∧
    (snkBeat { sendingOne with core := mk 43 .opened .noError (List.replicate 9 true) 9 } (quiet true)).map
      Beat.last = some false :=
  ⟨⟨_, portInv_sendingOne, rfl, rfl, by decide⟩, ⟨_, rfl⟩, by decide⟩
theorem witness_ResetAtThePins : ({ quiet true with rst := true } : PortIn).rst = true := rfl

end Sys2Proof.Tests
end

namespace Sys2Proof.Proofs

open Sys2Proof Sys2Proof.Machine

/-! # The step and the pins

## What a step does, operation by operation (00_scope.md R5, 60_exceptions.md R182, R190) -/

theorem step_of_idle {s : State} (h : s.pending = []) : step s = .next s := by simp only [step, h]

theorem step_of_cmd {s : State} {w : CmdWord} {rest : List HostOp} (h : s.pending = .cmd w :: rest) :
    step s = runWord w (s.withPending rest) := by simp only [step, h, State.withPending]

theorem step_of_read {s : State} {a : RegAddr} {rest : List HostOp} (h : s.pending = .read a :: rest) :
    step s = .next (hostRead a (s.withPending rest)) := by simp only [step, h, State.withPending]

theorem step_of_reset {s : State} {rest : List HostOp} (h : s.pending = .reset :: rest) :
    step s = .next (applyReset (s.withPending rest)) := by simp only [step, h, State.withPending]

theorem runWord_of_legal {w : CmdWord} {i : Instr} (s : State) (h : decode w = .legal i) :
    runWord w s = exec i s := by simp only [runWord, h]

theorem runWord_of_illegal {w : CmdWord} {why : Illegal} (s : State) (h : decode w = .illegal why) :
    runWord w s = .next (illegalWord s) := by simp only [runWord, h]

/-- A word below `2^64` put in front of the pending operations is the step's command word. -/
theorem step_withFetchWord (s : State) {w : Nat} (h : w < 2 ^ 64) :
    step (s.withFetchWord 64 w) = runWord (BitVec.ofNat 64 w) s := by
  have hp : (s.withFetchWord 64 w).pending = .cmd (BitVec.ofNat 64 w) :: s.pending := by
    rw [State.withFetchWord, Nat.mod_eq_of_lt h]
  exact step_of_cmd hp

/-- Settles O7: one rule per operation of the Host. -/
theorem stepRunsTheDecodedCommand : Obligations.StepRunsTheDecodedCommand := by
  intro s
  refine ⟨step_of_idle, fun w rest hp => ⟨fun i hd => ?_, fun why hd => ?_⟩, fun w i hd hw => ?_,
    fun rest hp => ⟨_, step_of_reset hp, rfl, rfl, rfl, rfl⟩⟩
  · exact (step_of_cmd hp).trans (runWord_of_legal _ hd)
  · exact (step_of_cmd hp).trans (runWord_of_illegal _ hd)
  · exact (step_withFetchWord s hw).trans (runWord_of_legal _ hd)

/-! ## The beats of a stream (20_memory.md R55, R56) -/

/-- The low `w` bits of a numeral do not see what is added at `2^v` and above. -/
theorem fixed_two_pow_mul_add {n v : Nat} (a : Nat) (hn : n < 2 ^ v) :
    ∀ {w : Nat}, w ≤ v → fixed (2 ^ v * a + n) w = fixed n w
  | 0, _ => rfl
  | w + 1, hw => by
    rw [fixed, fixed, fixed_two_pow_mul_add a hn (by omega), Nat.testBit_two_pow_mul_add a hn,
      if_pos (Nat.lt_of_succ_le hw)]

/-- A string is the numeral of its value, at its own length (R8, R9). -/
theorem fixed_val (s : Bits) : fixed (val s) s.length = s := by
  induction s with
  | nil => rfl
  | cons b s ih =>
    have hbit : (2 ^ s.length * b.toNat + val s).testBit s.length = b := by
      rw [Nat.testBit_two_pow_mul_add _ (val_lt s)]
      cases b <;> simp
    rw [val_cons, Nat.mul_comm, List.length_cons, fixed, hbit, fixed_two_pow_mul_add _ (val_lt s) le_rfl, ih]

/-- A beat has 8 bits of the stream, or those that are left. -/
theorem length_beatBits (s : Bits) (k : Nat) : (beatBits s k).length = min 8 (s.length - 8 * k) := by
  simp [beatBits, slice]

/-- The Sink reads off a beat exactly the stream bits the beat was made from. -/
theorem bits_beat (s : Bits) (k : Nat) : (beat s k).bits = beatBits s k := by
  have hlen := length_beatBits s k
  have hpad : (beatBits s k ++ List.replicate (8 - (beatBits s k).length) false).length = 8 := by
    simp; omega
  have hdata : fixed (beat s k).data.toNat 8 =
      beatBits s k ++ List.replicate (8 - (beatBits s k).length) false := by
    have hlt := val_lt (beatBits s k ++ List.replicate (8 - (beatBits s k).length) false)
    have hfix := fixed_val (beatBits s k ++ List.replicate (8 - (beatBits s k).length) false)
    rw [hpad] at hlt hfix
    rwa [beat, BitVec.toNat_ofNat, Nat.mod_eq_of_lt hlt]
  have hnbits : (beat s k).nbits.toNat = (beatBits s k).length := by
    rw [hlen, beat, BitVec.toNat_ofNat, Nat.mod_eq_of_lt (by omega)]
  rw [Beat.bits, hdata, hnbits, List.take_left]

/-- The first `n` beats carry the first `8 n` bits. -/
theorem flatMap_bits_beat (s : Bits) (n : Nat) :
    (List.range n).flatMap (fun k => (beat s k).bits) = s.take (8 * n) := by
  induction n with
  | zero => rfl
  | succ n ih =>
    rw [List.range_succ, List.flatMap_append, ih, List.flatMap_singleton, bits_beat, beatBits, slice,
      Nat.add_sub_cancel_left, Nat.mul_succ, List.take_add]

/-- The Sink recovers the stream from its beats. -/
theorem unpack_beats (s : Bits) : unpack (beats s) = s := by
  have hcount : s.length ≤ 8 * beatCount s.length := by unfold beatCount; omega
  rw [unpack, beats, List.flatMap_map, flatMap_bits_beat, List.take_of_length_le hcount]

@[simp] theorem length_beats (s : Bits) : (beats s).length = beatCount s.length := by simp [beats]

/-- One beat more of the transaction. -/
theorem take_beats_append {s : Bits} {k : Nat} (h : k < beatCount s.length) :
    (beats s).take k ++ [beat s k] = (beats s).take (k + 1) := by
  rw [List.take_succ_eq_append_getElem (by simpa using h)]
  simp [beats]

theorem beat_last_iff (s : Bits) (k : Nat) : (beat s k).last = true ↔ k = beatCount s.length - 1 := by
  simp [beat]

/-! ## What a word does to the buffer and to the Sink -/

theorem bufForm_of_effect {s t : State} (h : Effect s t) (hb : BufForm s) : BufForm t := by
  cases h with
  | unchanged => exact hb
  | raised c => exact bufForm_raiseError c hb
  | started => exact ⟨Nat.zero_le _, hb.within⟩
  | abandoned => exact ⟨Nat.zero_le _, hb.within⟩
  | appended f hs hf => exact bufAppend_of_fits hf ▸ bufForm_bufAppend f hb
  | delivered => exact ⟨hb.written, hb.within⟩

theorem bufForm_runWord {w : CmdWord} {s t : State} (h : runWord w s = .next t) (hb : BufForm s) :
    BufForm t := bufForm_of_effect (runWord_effect h) hb

/-- A word that delivers is a COMMIT of an open stream that is not empty. -/
theorem delivers_iff (w : CmdWord) (s : State) :
    delivers w s = true ↔ decode w = .legal .commit ∧ s.ctl = .opened ∧ s.blen ≠ 0 := by
  simp [delivers, and_assoc]

/-- What a word that delivers does (42_control.md R142): one Sink log entry, the stream, and DONE. -/
theorem runWord_of_delivers {w : CmdWord} {s : State} (h : delivers w s = true) :
    runWord w s = .next { sinkWrite s.stream s with ctl := .done } := by
  obtain ⟨hd, ho, hb⟩ := (delivers_iff w s).mp h
  rw [runWord_of_legal s hd, exec, execCommit, unlessError_of_not_error (by simp [ho]), requireOpen_of_opened ho,
    commitOpened, if_neg hb]

/-- The stream a word delivers has at least one beat. -/
theorem beatCount_pos_of_delivers {w : CmdWord} {s : State} (hb : BufForm s) (h : delivers w s = true) :
    0 < beatCount s.stream.length := by
  obtain ⟨-, -, hne⟩ := (delivers_iff w s).mp h
  have hw := hb.written
  simp only [beatCount, State.stream, List.length_take]
  omega

/-- What a word does depends on the pending operations in nothing. -/
theorem runWord_withPending {w : CmdWord} {s t : State} (ops : List HostOp) (h : runWord w s = .next t) :
    runWord w (s.withPending ops) = .next (t.withPending ops) := by
  obtain ⟨f, hf, hw⟩ := runWord_pendingFree w
  rw [hw] at h ⊢
  cases h
  exact congrArg Host.Outcome.next (hf s ops).2

/-! ## What a clock edge does -/

/-- The pins at an edge with `rst = 0` before the command in progress moves: the Host's duties are noted and
the read of this cycle is answered (70_reset_and_hazards.md R204; 20_memory.md R68). -/
def afterRead (p : PortState) (i : PortIn) (d : PortDraw) : PortState :=
  { holdDuties p i d with core := coreAfterRead p i d }

@[simp] theorem holdDuties_core (p : PortState) (i : PortIn) (d : PortDraw) :
    (holdDuties p i d).core = p.core := rfl
@[simp] theorem holdDuties_work (p : PortState) (i : PortIn) (d : PortDraw) :
    (holdDuties p i d).work = p.work := rfl
@[simp] theorem holdDuties_received (p : PortState) (i : PortIn) (d : PortDraw) :
    (holdDuties p i d).received = p.received := rfl
@[simp] theorem afterRead_work (p : PortState) (i : PortIn) (d : PortDraw) :
    (afterRead p i d).work = p.work := rfl
@[simp] theorem afterRead_received (p : PortState) (i : PortIn) (d : PortDraw) :
    (afterRead p i d).received = p.received := rfl

/-- With a command in progress no read is answered, so the core is as before (R68). -/
theorem afterRead_of_busy {p : PortState} (i : PortIn) (d : PortDraw) (h : p.work ≠ .ready) :
    afterRead p i d = holdDuties p i d := by
  have hcore : coreAfterRead p i d = p.core := by simp [coreAfterRead, regAck, cmdReady, h]
  rw [afterRead, hcore]
  rfl

theorem clockEdge_of_rst {p : PortState} {i : PortIn} (d : PortDraw) (h : i.rst = true) :
    clockEdge p i d = .next (portReset p) := if_pos h

theorem clockEdge_of_hold {p : PortState} {i : PortIn} (d : PortDraw) (hr : i.rst = false)
    (hb : breaksHold p i = false) : clockEdge p i d = workEdge (afterRead p i d) i d := by
  simp only [clockEdge, hr, hb, afterRead, Bool.false_eq_true, if_false]

/-- What a clock edge that is not refused can do: reset, or one move of the command in progress. -/
inductive EdgeEffect (p : PortState) (i : PortIn) (d : PortDraw) : PortState → Prop where
  | reset (hr : i.rst = true) : EdgeEffect p i d (portReset p)
  | waited (hr : i.rst = false) (hw : p.work = .ready) (hv : i.cmdValid = false) :
      EdgeEffect p i d (afterRead p i d)
  | accepted (hr : i.rst = false) (hw : p.work = .ready) (hv : i.cmdValid = true) :
      EdgeEffect p i d { afterRead p i d with work := .running i.cmdData }
  | worked (w : CmdWord) (hr : i.rst = false) (hw : p.work = .running w) (hf : d.finish = false) :
      EdgeEffect p i d (holdDuties p i d)
  | startedDelivery (w : CmdWord) (hr : i.rst = false) (hw : p.work = .running w) (hf : d.finish = true)
      (hd : delivers w p.core = true) :
      EdgeEffect p i d { holdDuties p i d with work := .sending w 0, received := [] }
  | completed (w : CmdWord) (c : State) (hr : i.rst = false) (hw : p.work = .running w)
      (hf : d.finish = true) (hd : delivers w p.core = false) (hc : runWord w p.core = .next c) :
      EdgeEffect p i d { holdDuties p i d with core := c, work := .ready, received := [] }
  | stalled (w : CmdWord) (k : Nat) (hr : i.rst = false) (hw : p.work = .sending w k)
      (hs : i.snkReady = false) : EdgeEffect p i d (holdDuties p i d)
  | sentBeat (w : CmdWord) (k : Nat) (hr : i.rst = false) (hw : p.work = .sending w k)
      (hs : i.snkReady = true) (hl : (beat p.core.stream k).last = false) :
      EdgeEffect p i d { holdDuties p i d with
        work := .sending w (k + 1), received := p.received ++ [beat p.core.stream k] }
  | deliveredLast (w : CmdWord) (k : Nat) (c : State) (hr : i.rst = false) (hw : p.work = .sending w k)
      (hs : i.snkReady = true) (hl : (beat p.core.stream k).last = true) (hc : runWord w p.core = .next c) :
      EdgeEffect p i d { holdDuties p i d with
        core := { c with
          sinkLog := p.core.sinkLog ++ [unpack (p.received ++ [beat p.core.stream k])] }
        work := .ready, received := [] }

theorem complete_eq_next {w : CmdWord} {p q : PortState} (h : complete w p = .next q) :
    ∃ c, runWord w p.core = .next c ∧ q = { p with core := c, work := .ready, received := [] } := by
  unfold complete at h
  split at h
  · next c hc => cases h; exact ⟨c, hc, rfl⟩
  · cases h
  · cases h

theorem completeDelivery_eq_next {w : CmdWord} {bs : List Beat} {p q : PortState}
    (h : completeDelivery w bs p = .next q) :
    ∃ c, runWord w p.core = .next c ∧ q = { p with
      core := { c with sinkLog := p.core.sinkLog ++ [unpack bs] }, work := .ready, received := [] } := by
  unfold completeDelivery at h
  split at h
  · next r hr =>
    obtain ⟨c, hc, rfl⟩ := complete_eq_next hr
    cases h
    exact ⟨c, hc, rfl⟩
  · cases h
  · cases h

/-- The moves of the command in progress, by what it is (10_state.md R36). -/
theorem edgeEffect_of_workEdge {p q : PortState} {i : PortIn} {d : PortDraw} (hr : i.rst = false)
    (h : workEdge (afterRead p i d) i d = .next q) : EdgeEffect p i d q := by
  cases hw : p.work with
  | ready =>
    simp only [workEdge, afterRead_work, hw] at h
    cases h
    cases hv : i.cmdValid with
    | false => exact .waited hr hw hv
    | true => exact .accepted hr hw hv
  | running w =>
    rw [afterRead_of_busy i d (by simp [hw])] at h
    simp only [workEdge, holdDuties_work, holdDuties_core, hw] at h
    cases hf : d.finish with
    | false =>
      simp only [hf] at h
      cases h
      exact .worked w hr hw hf
    | true =>
      cases hd : delivers w p.core with
      | true =>
        simp only [hf, hd, if_true] at h
        cases h
        exact .startedDelivery w hr hw hf hd
      | false =>
        simp only [hf, hd, if_true, Bool.false_eq_true, if_false] at h
        obtain ⟨c, hc, rfl⟩ := complete_eq_next h
        exact .completed w c hr hw hf hd hc
  | sending w k =>
    rw [afterRead_of_busy i d (by simp [hw])] at h
    simp only [workEdge, holdDuties_work, holdDuties_core, holdDuties_received, hw] at h
    cases hs : i.snkReady with
    | false =>
      simp only [hs] at h
      cases h
      exact .stalled w k hr hw hs
    | true =>
      cases hl : (beat p.core.stream k).last with
      | false =>
        simp only [hs, hl, if_true] at h
        cases h
        exact .sentBeat w k hr hw hs hl
      | true =>
        simp only [hs, hl, if_true] at h
        obtain ⟨c, hc, rfl⟩ := completeDelivery_eq_next h
        exact .deliveredLast w k c hr hw hs hl hc

/-- The inversion of the clock edge. -/
theorem clockEdge_effect {p q : PortState} {i : PortIn} {d : PortDraw} (h : clockEdge p i d = .next q) :
    EdgeEffect p i d q := by
  cases hr : i.rst with
  | true =>
    rw [clockEdge_of_rst d hr] at h
    cases h
    exact .reset hr
  | false =>
    cases hb : breaksHold p i with
    | true => simp [clockEdge, hr, hb] at h
    | false => exact edgeEffect_of_workEdge hr (clockEdge_of_hold d hr hb ▸ h)

/-! ## The pin invariant -/

theorem received_of_ready {p : PortState} (h : PortInv p) (hw : p.work = .ready) : p.received = [] := by
  simpa only [DeliveryInProgress, hw] using h.delivery

theorem delivery_of_sending {p : PortState} {w : CmdWord} {k : Nat} (h : PortInv p)
    (hw : p.work = .sending w k) :
    delivers w p.core = true ∧ k < beatCount p.core.stream.length ∧
      p.received = (beats p.core.stream).take k := by
  simpa only [DeliveryInProgress, hw] using h.delivery

theorem bufForm_coreAfterRead {p : PortState} (i : PortIn) (d : PortDraw) (h : BufForm p.core) :
    BufForm (coreAfterRead p i d) := by
  unfold coreAfterRead
  split
  · exact bufForm_hostRead _ h
  · exact h

/-- With the last beat the Sink has all the beats of the stream (R55, R69). -/
theorem received_append_last {p : PortState} {w : CmdWord} {k : Nat} (h : PortInv p)
    (hw : p.work = .sending w k) (hl : (beat p.core.stream k).last = true) :
    p.received ++ [beat p.core.stream k] = beats p.core.stream := by
  obtain ⟨-, hk, hrec⟩ := delivery_of_sending h hw
  have hlast := (beat_last_iff _ _).mp hl
  rw [hrec, take_beats_append hk, List.take_of_length_le (by rw [length_beats]; omega)]

/-- Every clock edge keeps the pin invariant. -/
theorem portInv_of_edgeEffect {p q : PortState} {i : PortIn} {d : PortDraw} (h : PortInv p)
    (he : EdgeEffect p i d q) : PortInv q := by
  cases he with
  | reset => exact ⟨bufForm_applyReset p.core, rfl⟩
  | waited hr hw hv =>
    refine ⟨bufForm_coreAfterRead i d h.buffer, ?_⟩
    simpa only [DeliveryInProgress, afterRead_work, afterRead_received, hw] using received_of_ready h hw
  | accepted hr hw hv =>
    have hrec : p.received = [] := received_of_ready h hw
    exact ⟨bufForm_coreAfterRead i d h.buffer, hrec⟩
  | worked | stalled => exact ⟨h.buffer, h.delivery⟩
  | startedDelivery w hr hw hf hd =>
    exact ⟨h.buffer, hd, beatCount_pos_of_delivers h.buffer hd, rfl⟩
  | completed w c hr hw hf hd hc => exact ⟨bufForm_runWord hc h.buffer, rfl⟩
  | sentBeat w k hr hw hs hl =>
    obtain ⟨hd, hk, hrec⟩ := delivery_of_sending h hw
    have hnot : k ≠ beatCount p.core.stream.length - 1 := fun hk' => by
      simp [(beat_last_iff _ _).mpr hk'] at hl
    refine ⟨h.buffer, hd, ?_, ?_⟩
    · show k + 1 < beatCount p.core.stream.length
      omega
    · exact hrec ▸ take_beats_append hk
  | deliveredLast w k c hr hw hs hl hc =>
    obtain ⟨hwritten, hwithin⟩ := bufForm_runWord hc h.buffer
    exact ⟨⟨hwritten, hwithin⟩, rfl⟩

/-! ## The simulation: a clock edge is the Host operations that take effect at it -/

/-- Operations issued one list after the other. -/
theorem issue_append_of_next {before : List HostOp} {s t : State} (after : List HostOp)
    (h : issue before s = .next t) : issue (before ++ after) s = issue after t := by
  induction before generalizing s with
  | nil => cases h; rfl
  | cons op before ih =>
    simp only [List.cons_append, issue] at h ⊢
    split at h
    · next u hu => exact ih h
    · cases h
    · cases h

theorem issue_singleton (op : HostOp) (s : State) : issue [op] s = step (s.withPending [op]) := by
  simp only [issue, State.withPending]
  split <;> simp only [*]

theorem issue_cmd {w : CmdWord} {s t : State} (h : runWord w s = .next t) :
    issue [.cmd w] (s.withPending []) = .next (t.withPending []) := by
  rw [issue_singleton, step_of_cmd rfl, State.withPending_withPending, State.withPending_withPending,
    runWord_withPending [] h]

/-- With no command in progress the edge is the cycle's read, or nothing. -/
theorem issue_edgeOps_of_ready {p : PortState} {i : PortIn} (d : PortDraw) (hr : i.rst = false)
    (hw : p.work = .ready) :
    issue (edgeOps p i d) (p.core.withPending []) = .next ((coreAfterRead p i d).withPending []) := by
  simp only [edgeOps, coreAfterRead, hr, hw, Bool.false_eq_true, if_false]
  split
  · rw [issue_singleton, step_of_read rfl]
    rfl
  · rfl

theorem edgeOps_of_rst {p : PortState} {i : PortIn} (d : PortDraw) (h : i.rst = true) :
    edgeOps p i d = [.reset] := if_pos h

theorem edgeOps_of_running {p : PortState} {i : PortIn} {w : CmdWord} (d : PortDraw) (hr : i.rst = false)
    (hw : p.work = .running w) :
    edgeOps p i d = if d.finish && !delivers w p.core then [.cmd w] else [] := by
  simp only [edgeOps, hr, hw, Bool.false_eq_true, if_false]

theorem edgeOps_of_sending {p : PortState} {i : PortIn} {w : CmdWord} {k : Nat} (d : PortDraw)
    (hr : i.rst = false) (hw : p.work = .sending w k) :
    edgeOps p i d = if i.snkReady && (beat p.core.stream k).last then [.cmd w] else [] := by
  simp only [edgeOps, hr, hw, Bool.false_eq_true, if_false]

/-- The Sink log entry read off the beats is the one the atomic COMMIT makes (R56, R57). -/
theorem core_of_deliveredLast {p : PortState} {w : CmdWord} {k : Nat} {c : State} (h : PortInv p)
    (hw : p.work = .sending w k) (hl : (beat p.core.stream k).last = true)
    (hc : runWord w p.core = .next c) :
    { c with sinkLog := p.core.sinkLog ++ [unpack (p.received ++ [beat p.core.stream k])] } = c := by
  obtain ⟨hd, -, -⟩ := delivery_of_sending h hw
  rw [runWord_of_delivers hd] at hc
  cases hc
  rw [received_append_last h hw hl, unpack_beats]
  rfl

/-- One edge: a reset, the cycle's read, or the command that completes at it; an edge that only moves the
command in progress or a beat is no operation, and leaves the core. -/
theorem issue_edgeOps {p q : PortState} {i : PortIn} {d : PortDraw} (h : PortInv p)
    (he : EdgeEffect p i d q) :
    issue (edgeOps p i d) (p.core.withPending []) = .next (q.core.withPending []) := by
  cases he with
  | reset hr =>
    rw [edgeOps_of_rst d hr, issue_singleton, step_of_reset rfl]
    rfl
  | waited hr hw hv | accepted hr hw hv => exact issue_edgeOps_of_ready d hr hw
  | worked w hr hw hf =>
    simp [edgeOps_of_running d hr hw, hf, issue]
  | startedDelivery w hr hw hf hd =>
    simp [edgeOps_of_running d hr hw, hd, issue]
  | completed w c hr hw hf hd hc =>
    simpa [edgeOps_of_running d hr hw, hf, hd] using issue_cmd hc
  | stalled w k hr hw hs =>
    simp [edgeOps_of_sending d hr hw, hs, issue]
  | sentBeat w k hr hw hs hl =>
    simp [edgeOps_of_sending d hr hw, hl, issue]
  | deliveredLast w k c hr hw hs hl hc =>
    simpa [edgeOps_of_sending d hr hw, hs, hl, core_of_deliveredLast h hw hl hc] using issue_cmd hc

/-- Along a run of clock edges: the invariant at its end, and the operations that took effect. -/
theorem issue_runOps {p q : PortState} {ins : List (PortIn × PortDraw)} (h : PortInv p)
    (hrun : portRun p ins = .next q) :
    PortInv q ∧ issue (runOps p ins) (p.core.withPending []) = .next (q.core.withPending []) := by
  induction ins generalizing p with
  | nil => cases hrun; exact ⟨h, rfl⟩
  | cons e ins ih =>
    obtain ⟨i, d⟩ := e
    simp only [portRun, runOps] at hrun ⊢
    split at hrun
    · next r hr =>
      have he := clockEdge_effect hr
      obtain ⟨hq, hissue⟩ := ih (portInv_of_edgeEffect h he) hrun
      exact ⟨hq, by rw [issue_append_of_next _ (issue_edgeOps h he), hissue]⟩
    · cases hrun
    · cases hrun

/-- Settles O55, by induction on the run: each edge keeps the pin invariant and is, for the core, the issue
of the operations that take effect at it. -/
theorem pinsRefineTheAtomicMachine : Obligations.PinsRefineTheAtomicMachine := by
  intro p q ins h hrun
  obtain ⟨hq, hissue⟩ := issue_runOps h hrun
  exact ⟨hq, (runSteps_of_issue _ rfl hissue).2⟩

end Sys2Proof.Proofs

namespace Sys2Proof.Proofs

open Sys2Proof Sys2Proof.Machine Sys2Proof.Claims

/-! # The state: its invariants, its registers and reset

## What a word can do, with the command that does it (42_control.md R144, 60_exceptions.md R182) -/

/-- What a word that decodes to `d` can do to a state: `Effect`, with the command that has the effect and
the fragment that is appended. -/
inductive WordEffect (d : Decoded) (s : State) : State → Prop where
  | unchanged : WordEffect d s s
  | raised (c : ErrCode) (hs : s.ctl ≠ .error) (hc : c ≠ .noError) : WordEffect d s (raiseError c s)
  | started (hd : d = .legal .openC) :
      WordEffect d s { s with ctl := .opened, err := .noError, blen := 0, lastlen := 0 }
  | abandoned (hd : d = .legal .abort) : WordEffect d s { s with ctl := .idle, blen := 0, lastlen := 0 }
  | appended (i : Instr) (f : Bits) (hd : d = .legal i) (hi : fragment i = some f) (hs : s.ctl = .opened)
      (hf : s.blen + f.length ≤ s.cfg.bufCap) :
      WordEffect d s { s with
        buf := writeBits s.buf s.blen f, blen := s.blen + f.length, lastlen := f.length }
  | delivered (hd : d = .legal .commit) (hs : s.ctl = .opened) (hb : s.blen ≠ 0) :
      WordEffect d s { sinkWrite s.stream s with ctl := .done }

/-- The ERROR gate over the state check: what holds in each of its three outcomes holds of its result. -/
theorem gated_induction {P : State → Prop} {act : State → State} {s : State}
    (hignored : s.ctl = .error → P s) (hsequence : s.ctl ≠ .error → P (raiseError .sequence s))
    (hact : s.ctl = .opened → P (act s)) : P (unlessError (requireOpen act) s) := by
  by_cases he : s.ctl = .error
  · rw [unlessError_of_error he]
    exact hignored he
  · rw [unlessError_of_not_error he]
    by_cases ho : s.ctl = .opened
    · rw [requireOpen_of_opened ho]
      exact hact ho
    · rw [requireOpen_of_not_opened ho]
      exact hsequence he

theorem wordEffect_gated {d : Decoded} {act : State → State} {s : State}
    (h : s.ctl = .opened → WordEffect d s (act s)) : WordEffect d s (unlessError (requireOpen act) s) :=
  gated_induction (fun _ => .unchanged) (fun he => .raised _ he (by simp)) h

theorem wordEffect_bufAppend {i : Instr} {f : Bits} {s : State} (hi : fragment i = some f)
    (ho : s.ctl = .opened) : WordEffect (.legal i) s (bufAppend f s) := by
  by_cases hf : s.blen + f.length ≤ s.cfg.bufCap
  · rw [bufAppend_of_fits hf]
    exact .appended i f rfl hi ho hf
  · rw [bufAppend_of_overflow (Nat.not_le.mp hf)]
    exact .raised _ (by simp [ho]) (by simp)

theorem wordEffect_appendCommand (i : Instr) {c : ErrCode} (s : State) (hc : c ≠ .noError) :
    WordEffect (.legal i) s (appendCommand c (fragment i) s) := by
  refine wordEffect_gated fun ho => ?_
  cases hi : fragment i with
  | none => exact .raised c (by simp [ho]) hc
  | some f => exact wordEffect_bufAppend hi ho

theorem wordEffect_commitOpened {s : State} (ho : s.ctl = .opened) :
    WordEffect (.legal .commit) s (commitOpened s) := by
  unfold commitOpened
  split
  · exact .raised _ (by simp [ho]) (by simp)
  · exact .delivered rfl ho ‹_›

theorem wordEffect_exec {i : Instr} {s t : State} (h : exec i s = .next t) : WordEffect (.legal i) s t := by
  cases i <;> cases h
  case nop => exact .unchanged
  case openC => exact .started rfl
  case omega n => exact wordEffect_appendCommand (.omega n) s (by simp)
  case fix7 v => exact wordEffect_appendCommand (.fix7 v) s (by simp)
  case bits lm1 d => exact wordEffect_gated (wordEffect_bufAppend (i := .bits lm1 d) rfl)
  case commit => exact wordEffect_gated wordEffect_commitOpened
  case abort => exact .abandoned rfl

/-- The inversion of `runWord` that names the command. -/
theorem runWord_wordEffect {w : CmdWord} {s t : State} (h : runWord w s = .next t) :
    WordEffect (decode w) s t := by
  cases hd : decode w with
  | legal i =>
    rw [runWord_of_legal s hd] at h
    exact wordEffect_exec h
  | illegal why =>
    rw [runWord_of_illegal s hd] at h
    cases h
    by_cases he : s.ctl = .error
    · rw [illegalWord, unlessError_of_error he]
      exact .unchanged
    · rw [illegalWord, unlessError_of_not_error he]
      exact .raised _ he (by simp)

/-- No word changes the parameters, the Host's later operations or the values it has read. -/
theorem frame_of_effect {s t : State} (h : Effect s t) :
    t.cfg = s.cfg ∧ t.pending = s.pending ∧ t.reads = s.reads := by
  cases h <;> exact ⟨rfl, rfl, rfl⟩

/-! ## What every step keeps -/

/-- A property that taking an operation, every word, every read and reset keep is kept by every step. -/
theorem step_keeps {P : State → Prop} (hpending : ∀ s ops, P s → P (s.withPending ops))
    (hword : ∀ w s t, runWord w s = .next t → P s → P t) (hread : ∀ a s, P s → P (hostRead a s))
    (hreset : ∀ s, P s → P (applyReset s)) {s t : State} (hs : P s) (h : step s = .next t) : P t := by
  obtain ⟨-, rfl⟩ | ⟨w, rest, -, hw⟩ | ⟨a, rest, -, rfl⟩ | ⟨rest, -, rfl⟩ := step_cases h
  · exact hs
  · exact hword w _ t hw (hpending s rest hs)
  · exact hread a _ (hpending s rest hs)
  · exact hreset _ (hpending s rest hs)

/-- BUF_CAP is a parameter: no step changes it. -/
theorem step_cfg {s t : State} (h : step s = .next t) : t.cfg = s.cfg :=
  step_keeps (P := fun u => u.cfg = s.cfg) (fun _ _ hu => hu)
    (fun _ _ _ hw hu => (frame_of_effect (runWord_effect hw)).1.trans hu) (fun _ _ hu => hu)
    (fun _ hu => hu) rfl h

/-! ## The invariants of R27 -/

theorem specInv_of_idle {s : State} (hc : s.ctl = .idle) (hb : s.blen = 0) (hl : s.lastlen = 0) :
    SpecInv s := by
  constructor <;> simp [hc, hb, hl]

theorem specInv_of_effect {s t : State} (h : Effect s t) (hs : SpecInv s) : SpecInv t := by
  obtain ⟨hidle, herror, hdone, hopened, hfits⟩ := hs
  cases h with
  | unchanged => exact ⟨hidle, herror, hdone, hopened, hfits⟩
  | raised c _ hc => constructor <;> simp [hc]
  | started => constructor <;> simp
  | abandoned => exact specInv_of_idle rfl rfl rfl
  | appended f ho hf => constructor <;> simp [ho, hf, hopened ho]
  | delivered ho hb => constructor <;> simp [hfits, hopened ho, Nat.one_le_iff_ne_zero, hb]

/-- Settles O12: each effect of a word keeps R27, and reset meets it. -/
theorem specInvariantAlwaysHolds : Obligations.SpecInvariantAlwaysHolds :=
  ⟨fun _ => specInv_of_idle rfl rfl rfl, fun _ _ =>
    step_keeps (fun _ _ ⟨hi, he, hd, ho, hf⟩ => ⟨hi, he, hd, ho, hf⟩)
      (fun _ _ _ hw => specInv_of_effect (runWord_effect hw))
      (fun _ _ ⟨hi, he, hd, ho, hf⟩ => ⟨hi, he, hd, ho, hf⟩) fun _ _ => specInv_of_idle rfl rfl rfl⟩

/-! ## The form of the bit buffer (log entry 2) -/

/-- Settles O13: a word, a read and a reset each keep the form. -/
theorem stepKeepsTheBufferForm : Obligations.StepKeepsTheBufferForm := fun _ _ =>
  step_keeps (fun _ _ ⟨hw, hc⟩ => ⟨hw, hc⟩) (fun _ _ _ => bufForm_runWord)
    (fun a _ => bufForm_hostRead a) fun s _ => bufForm_applyReset s

/-! ## LASTLEN (10_state.md R26) -/

theorem nbits_le_of_lt_two_pow {n w : Nat} (h1 : 1 ≤ n) (h : n < 2 ^ w) : nbits n ≤ w := by
  have := (Nat.log2_lt (Nat.ne_of_gt h1)).mpr h
  rw [nbits_pos h1]
  omega

/-- The length groups of a 32-bit operand's code have at most 11 bits (R103). -/
theorem length_omegaPrefix_le : ∀ L < 32, (omegaPrefix L).length ≤ 11 := by decide

/-- The code of a 32-bit operand has at most `OMAX` bits, and at least one (R103). -/
theorem length_omega_le {n : Operand} {f : Bits} (h : omega n.toNat = some f) :
    1 ≤ f.length ∧ f.length ≤ oMax := by
  obtain hn | hn := Nat.eq_zero_or_pos n.toNat
  · simp [hn, omega_zero] at h
  · have hpos := one_le_nbits hn
    have hbits := nbits_le_of_lt_two_pow hn n.isLt
    have hgroups := length_omegaPrefix_le (nbits n.toNat - 1) (by omega)
    rw [omega_pos hn, Option.some.injEq] at h
    subst h
    simp only [List.length_append, length_bin, oMax]
    omega

/-- Every fragment has 1 to `OMAX` bits: OMEGA's at most 43, FIX7's 7, BITS' 1 to 32. -/
theorem length_fragment {i : Instr} {f : Bits} (h : fragment i = some f) :
    1 ≤ f.length ∧ f.length ≤ oMax := by
  cases i with
  | omega n => exact length_omega_le h
  | fix7 v =>
    obtain hv | hv := Nat.lt_or_ge v.toNat 128
    · obtain rfl := Option.some.inj ((fix7_of_lt hv).symm.trans h)
      simp [oMax]
    · cases (fix7_of_ge hv).symm.trans h
  | bits lm1 d =>
    obtain rfl := Option.some.inj h
    simp only [length_fixed, oMax]
    omega
  | nop | openC | commit | abort => cases h

theorem lastLenInv_of_zero {s : State} (hl : s.lastlen = 0) (hb : s.blen = 0) : LastLenInv s := by
  constructor <;> simp [hl, hb]

theorem lastLenInv_of_wordEffect {d : Decoded} {s t : State} (h : WordEffect d s t) (hs : LastLenInv s) :
    LastLenInv t := by
  obtain ⟨hrange, hwithin, hzero⟩ := hs
  cases h with
  | unchanged => exact ⟨hrange, hwithin, hzero⟩
  | raised => exact ⟨hrange, by simp, by simp⟩
  | started | abandoned => exact lastLenInv_of_zero rfl rfl
  | appended i f _ hi =>
    obtain ⟨hpos, hle⟩ := length_fragment hi
    exact ⟨hle, fun _ => Nat.le_add_left _ _, fun _ => by dsimp only; omega⟩
  | delivered _ ho => exact ⟨hrange, fun _ => hwithin (.inl ho), fun _ => hzero (.inl ho)⟩

/-- Settles O14: an append is the only effect that makes LASTLEN grow, and a fragment has 1 to 43 bits. -/
theorem stepKeepsTheLastLengthInvariant : Obligations.StepKeepsTheLastLengthInvariant := fun _ _ =>
  step_keeps (fun _ _ ⟨hr, hw, hz⟩ => ⟨hr, hw, hz⟩)
    (fun _ _ _ hw => lastLenInv_of_wordEffect (runWord_wordEffect hw))
    (fun _ _ ⟨hr, hw, hz⟩ => ⟨hr, hw, hz⟩) fun _ _ => lastLenInv_of_zero rfl rfl

/-! ## The delivered stream (10_state.md R23, R25) -/

theorem deliveredInv_of_not_done {s : State} (h : s.ctl ≠ .done) : DeliveredInv s :=
  ⟨fun hd => absurd hd h⟩

theorem deliveredInv_of_effect {s t : State} (h : Effect s t) (hs : DeliveredInv s) : DeliveredInv t := by
  cases h with
  | unchanged => exact hs
  | raised | started | abandoned => exact deliveredInv_of_not_done (by simp)
  | appended f ho => exact deliveredInv_of_not_done (by simp [ho])
  | delivered => exact ⟨fun _ => List.getLast?_concat⟩

/-- Settles O15: DONE is entered by a delivery alone, which puts the stream last in the Sink log. -/
theorem doneHoldsTheDeliveredStream : Obligations.DoneHoldsTheDeliveredStream := fun _ _ =>
  step_keeps (fun _ _ ⟨hl⟩ => ⟨hl⟩) (fun _ _ _ hw => deliveredInv_of_effect (runWord_effect hw))
    (fun _ _ ⟨hl⟩ => ⟨hl⟩) fun _ _ => deliveredInv_of_not_done (by simp)

/-! ## Stale bits (10_state.md R25) -/

/-- States that differ only in stale bits are alike in all that is architectural, in the Host and in the
Sink. -/
theorem sameButStale_iff {s t : State} : SameButStale s t ↔
    SameVisible s t ∧ s.pending = t.pending ∧ s.reads = t.reads ∧ s.sinkLog = t.sinkLog := by
  constructor
  · rintro ⟨hrest, hstream⟩
    obtain ⟨hcfg, hctl, herr, -, hblen, hlastlen, hpending, hreads, hsink⟩ := State.mk.inj hrest
    exact ⟨⟨hcfg, hctl, herr, hblen, hlastlen, hstream⟩, hpending, hreads, hsink⟩
  · rintro ⟨⟨hcfg, hctl, herr, hblen, hlastlen, hstream⟩, hpending, hreads, hsink⟩
    refine ⟨?_, hstream⟩
    rw [hcfg, hctl, herr, hblen, hlastlen, hpending, hreads, hsink]

/-- No register shows a stale bit. -/
theorem readReg_of_sameVisible {s t : State} (h : SameVisible s t) (a : RegAddr) :
    readReg s a = readReg t a := by
  simp only [readReg, statusWord, blenWord, lastlenWord, capWord, h.cfg, h.ctl, h.err, h.blen, h.lastlen]

theorem observe_of_sameButStale {s t : State} (h : SameButStale s t) : observe s = observe t := by
  obtain ⟨hv, -, hreads, hsink⟩ := sameButStale_iff.mp h
  simp only [observe, hreads, hv.ctl, hv.err, hv.stream, hv.blen, hv.lastlen, hsink]

theorem sameButStale_withPending {s t : State} (ops : List HostOp) (h : SameButStale s t) :
    SameButStale (s.withPending ops) (t.withPending ops) := by
  obtain ⟨⟨hcfg, hctl, herr, hblen, hlastlen, hstream⟩, -, hreads, hsink⟩ := sameButStale_iff.mp h
  exact sameButStale_iff.mpr ⟨⟨hcfg, hctl, herr, hblen, hlastlen, hstream⟩, rfl, hreads, hsink⟩

theorem sameButStale_hostRead {s t : State} (a : RegAddr) (h : SameButStale s t) :
    SameButStale (hostRead a s) (hostRead a t) := by
  obtain ⟨hv, hpending, hreads, hsink⟩ := sameButStale_iff.mp h
  have hread := readReg_of_sameVisible hv a
  obtain ⟨hcfg, hctl, herr, hblen, hlastlen, hstream⟩ := hv
  refine sameButStale_iff.mpr ⟨⟨hcfg, hctl, herr, hblen, hlastlen, hstream⟩, hpending, ?_, hsink⟩
  rw [hostRead_reads, hostRead_reads, hreads, hread]

theorem sameButStale_applyReset {s t : State} (h : SameButStale s t) :
    SameButStale (applyReset s) (applyReset t) := by
  obtain ⟨hv, hpending, hreads, hsink⟩ := sameButStale_iff.mp h
  exact sameButStale_iff.mpr ⟨⟨hv.cfg, rfl, rfl, rfl, rfl, rfl⟩, hpending, hreads, hsink⟩

/-- No word lets a stale bit into the stream, the Sink log or a decision. -/
theorem sameButStale_runWord {w : CmdWord} {s s' t : State} (h : SameButStale s s')
    (ht : runWord w s = .next t) : ∃ t', runWord w s' = .next t' ∧ SameButStale t t' := by
  obtain ⟨f, hf, hw⟩ := Laws.runWord_keepsVisible w
  obtain ⟨hv, hpending, hreads, hsink⟩ := sameButStale_iff.mp h
  obtain ⟨hv', d, hd, hd'⟩ := hf s s' hv
  obtain ⟨-, hp, hr⟩ := frame_of_effect (runWord_effect (hw s))
  obtain ⟨-, hp', hr'⟩ := frame_of_effect (runWord_effect (hw s'))
  obtain rfl : f s = t := Host.Outcome.next.inj ((hw s).symm.trans ht)
  exact ⟨f s', hw s', sameButStale_iff.mpr
    ⟨hv', by rw [hp, hp', hpending], by rw [hr, hr', hreads], by rw [hd, hd', hsink]⟩⟩

/-- A step from a state that differs only in stale bits ends in one that does. -/
theorem sameButStale_step {s s' t : State} (h : SameButStale s s') (ht : step s = .next t) :
    ∃ t', step s' = .next t' ∧ SameButStale t t' := by
  obtain ⟨-, hpending, -, -⟩ := sameButStale_iff.mp h
  obtain ⟨hp, rfl⟩ | ⟨w, rest, hp, hw⟩ | ⟨a, rest, hp, rfl⟩ | ⟨rest, hp, rfl⟩ := step_cases ht <;>
    rw [hpending] at hp
  · exact ⟨s', step_of_idle hp, h⟩
  · rw [step_of_cmd hp]
    exact sameButStale_runWord (sameButStale_withPending rest h) hw
  · exact ⟨_, step_of_read hp, sameButStale_hostRead a (sameButStale_withPending rest h)⟩
  · exact ⟨_, step_of_reset hp, sameButStale_applyReset (sameButStale_withPending rest h)⟩

/-- Settles O48: what shows, and what a step does, depends on the visible part alone. -/
theorem staleBitsNeverShow : Obligations.StaleBitsNeverShow := fun _ _ _ h ht =>
  ⟨observe_of_sameButStale h, readReg_of_sameVisible (sameButStale_iff.mp h).1, sameButStale_step h ht⟩

/-! ## Clock edges -/

/-- Settles O56, by the inversion of the clock edge: each of its moves keeps the pin invariant. -/
theorem clockEdgeKeepsThePinInvariant : Obligations.ClockEdgeKeepsThePinInvariant :=
  fun _ _ _ _ h he => portInv_of_edgeEffect h (clockEdge_effect he)

/-! ## No step stops, and what changes ERR -/

/-- Settles O8: each operation of the Host answers a next state. -/
theorem everyStepAnswersANextState : Obligations.EveryStepAnswersANextState := by
  intro s
  match hp : s.pending with
  | [] => exact ⟨_, step_of_idle hp⟩
  | .cmd w :: rest =>
    obtain ⟨f, -, hw⟩ := runWord_pendingFree w
    exact ⟨_, (step_of_cmd hp).trans (hw _)⟩
  | .read a :: rest => exact ⟨_, step_of_read hp⟩
  | .reset :: rest => exact ⟨_, step_of_reset hp⟩

/-- A word that changes ERR is OPEN, which clears it, or enters ERROR with a code. -/
theorem runWord_err_ne {w : CmdWord} {s t : State} (h : runWord w s = .next t) (hne : t.err ≠ s.err) :
    (t.err = .noError ∧ decode w = .legal .openC) ∨
      (t.err ≠ .noError ∧ s.ctl ≠ .error ∧ t.ctl = .error) := by
  cases runWord_wordEffect h with
  | raised c hs hc => exact .inr ⟨hc, hs, rfl⟩
  | started hd => exact .inl ⟨rfl, hd⟩
  | unchanged | abandoned | appended | delivered => exact absurd rfl hne

/-- Settles O44: of the operations only reset, OPEN and an error entry write ERR. -/
theorem errChangesOnlyAsTheRulesSay : Obligations.ErrChangesOnlyAsTheRulesSay := by
  intro s t h hne
  obtain ⟨-, rfl⟩ | ⟨w, rest, hp, hw⟩ | ⟨a, rest, -, rfl⟩ | ⟨rest, hp, rfl⟩ := step_cases h
  · exact absurd rfl hne
  · obtain ⟨herr, hd⟩ | ⟨herr, hs, ht⟩ := runWord_err_ne hw hne
    · exact .inl ⟨herr, .inr ⟨w, rest, hp, hd⟩⟩
    · exact .inr ⟨herr, hs, ht, w, rest, hp⟩
  · exact absurd rfl hne
  · exact .inl ⟨rfl, .inl ⟨rest, hp⟩⟩

/-! ## Registers (10_state.md R28 to R33) -/

theorem readReg_status (s : State) : readReg s 0x0#4 = statusWord s := rfl
theorem readReg_blenr (s : State) : readReg s 0x1#4 = BitVec.ofNat 32 s.blen := rfl
theorem readReg_lastlenr (s : State) : readReg s 0x2#4 = (BitVec.ofNat 6 s.lastlen).setWidth 32 := rfl
theorem readReg_capr (s : State) : readReg s 0x3#4 = BitVec.ofNat 32 s.cfg.bufCap := rfl

/-- STATUS reads 0 in IDLE with no error (R29, R37). -/
theorem readReg_status_eq_zero {s : State} (hc : s.ctl = .idle) (he : s.err = .noError) :
    readReg s 0x0#4 = 0#32 := by
  rw [readReg_status, statusWord, hc, he]
  decide

theorem readReg_of_ge {a : RegAddr} (s : State) (h : 0x4 ≤ a.toNat) : readReg s a = 0#32 := by
  unfold readReg
  split
  case h_5 => rfl
  all_goals omega

/-- The fields of STATUS, whatever the codes in them (R29). -/
theorem statusWord_fields : ∀ (c : BitVec 2) (e : BitVec 4),
    let v : RegWord := (e.setWidth 32 <<< 4) ||| c.setWidth 32
    v.extractLsb' 0 2 = c ∧ v.extractLsb' 2 2 = 0#2 ∧ v.extractLsb' 4 4 = e ∧ v.extractLsb' 8 24 = 0#24 := by
  decide

/-- Settles O16: the fields hold the two codes and 0 between and above them. -/
theorem statusRegisterLayout : Obligations.StatusRegisterLayout := by
  refine ⟨fun s => ?_, fun _ => readReg_status_eq_zero rfl rfl⟩
  obtain ⟨hctl, hlow, herr, hhigh⟩ := statusWord_fields (ctlCode s.ctl) (errCode s.err)
  refine ⟨hctl.trans ?_, hlow, herr.trans ?_, hhigh⟩
  · cases s.ctl <;> rfl
  · cases s.err <;> rfl

theorem lastlenWord_reserved : ∀ l : BitVec 6, (l.setWidth 32).extractLsb' 6 26 = 0#26 := by decide

/-- Settles O17: the invariants keep the three values within the width of their fields. -/
theorem lengthAndCapacityRegisters : Obligations.LengthAndCapacityRegisters := by
  refine ⟨fun s hlegal hspec hlast => ?_, fun _ => ⟨rfl, rfl⟩, fun s t h => ?_⟩
  · have hfits := hspec.fits
    have hrange : s.lastlen ≤ 43 := hlast.range
    have hcap : s.cfg.bufCap < 2 ^ 32 := by simp [Config.legal] at hlegal; omega
    refine ⟨?_, hfits, ?_, hrange, lastlenWord_reserved _, ?_⟩
    · rw [readReg_blenr, BitVec.toNat_ofNat, Nat.mod_eq_of_lt (by omega)]
    · rw [readReg_lastlenr, BitVec.toNat_setWidth, BitVec.toNat_ofNat]
      omega
    · rw [readReg_capr, BitVec.toNat_ofNat, Nat.mod_eq_of_lt hcap]
  · rw [readReg_capr, readReg_capr, step_cfg h]

/-- Settles O18: only the values read grow, and no register shows those. -/
theorem readReturnsTheWordAndChangesNothing : Obligations.ReadReturnsTheWordAndChangesNothing := by
  intro s a rest hp
  refine ⟨_, step_of_read hp, rfl, fun b => rfl, fun ha => ?_⟩
  rw [hostRead_reads, readReg_of_ge _ ha]
  rfl

/-! ## Reset (10_state.md R37) -/

/-- Settles O10: the three views of reset, the first one, the operation and the edge at the pins. -/
theorem resetLeavesTheResetState : Obligations.ResetLeavesTheResetState := by
  refine ⟨fun c => ?_, fun s rest hp => ?_, fun p i => ⟨rfl, rfl, rfl⟩⟩
  · exact ⟨rfl, rfl, rfl, rfl, readReg_status_eq_zero rfl rfl, rfl, rfl, rfl⟩
  · exact ⟨_, step_of_reset hp, rfl, rfl, rfl, rfl, readReg_status_eq_zero rfl rfl, rfl, rfl, rfl, rfl, rfl⟩

/-- Settles O11: IDLE with nothing written, nothing appended and nothing delivered. -/
theorem resetMeetsTheInvariants : Obligations.ResetMeetsTheInvariants := fun c =>
  ⟨specInv_of_idle rfl rfl rfl, bufForm_resetOf c, lastLenInv_of_zero rfl rfl,
    deliveredInv_of_not_done (by simp), bufForm_resetOf c, rfl⟩

end Sys2Proof.Proofs

namespace Sys2Proof.Proofs

open Sys2Proof Sys2Proof.Machine Sys2Proof.Claims

/-! # The bit buffer, the Sink and the handshakes (20_memory.md)

## The order of the Host's operations (20_memory.md R60) -/

/-- Operations issued one by one are that many steps of a run in which others wait behind them. -/
theorem runSteps_append_of_issue {s t : State} {ops : List HostOp} (rest : List HostOp)
    (h : issue ops s = .next t) :
    runSteps ops.length (s.withPending (ops ++ rest)) = .next (t.withPending rest) := by
  induction ops generalizing s with
  | nil => cases h; rfl
  | cons op ops ih =>
    rw [issue] at h
    split at h
    · next u hu =>
      obtain ⟨-, hstep⟩ := step_withPending op (ops ++ rest) hu
      exact (runSteps_succ_of_next _ hstep).trans (ih h)
    · cases h
    · cases h

/-- Settles O9: the operations before the read run alike whatever waits behind them, and the read is one step
more. -/
theorem readSeesExactlyTheOperationsBeforeIt : Obligations.ReadSeesExactlyTheOperationsBeforeIt := by
  intro s before after a hp
  obtain ⟨t, hissue⟩ : ∃ t, issue before (s.withPending []) = .next t := by
    obtain ⟨f, -, hf⟩ := Laws.issue_keepsVisible before
    exact ⟨_, hf _⟩
  have hread : step (t.withPending (.read a :: after)) = .next (hostRead a (t.withPending after)) :=
    step_of_read rfl
  obtain ⟨hpending, hbefore⟩ := runSteps_of_issue before rfl hissue
  have hrun := runSteps_append_of_issue (.read a :: after) hissue
  rw [State.withPending_withPending, ← hp, State.withPending_self] at hrun
  exact ⟨t, hbefore, hpending, (runSteps_add_of_next 1 hrun).trans (runSteps_succ_of_next 0 hread)⟩

/-! ## The append commands (20_memory.md R51, 60_exceptions.md R181, R182) -/

/-- OMEGA, FIX7 and BITS are one command, on their fragment. BITS has a fragment for every operand, so its code
stands for no operand error (41_bit_packer.md R130). -/
theorem exec_of_isAppend {i : Instr} (h : isAppend i = true) :
    ∃ c, ∀ s, exec i s = .next (appendCommand c (fragment i) s) := by
  cases i with
  | omega n => exact ⟨.invalidArgument, fun _ => rfl⟩
  | fix7 v => exact ⟨.unsupportedSymbol, fun _ => rfl⟩
  | bits lm1 d => exact ⟨.overflow, fun _ => rfl⟩
  | nop | openC | commit | abort => cases h

theorem isAppend_of_fragment {i : Instr} {f : Bits} (h : fragment i = some f) : isAppend i = true := by
  cases i with
  | omega | fix7 | bits => rfl
  | nop | openC | commit | abort => cases h

/-- In OPEN a command with a fragment is `BufAppend` of it. -/
theorem exec_of_fragment {i : Instr} {f : Bits} {s : State} (h : fragment i = some f)
    (ho : s.ctl = .opened) : exec i s = .next (bufAppend f s) := by
  obtain ⟨c, hc⟩ := exec_of_isAppend (isAppend_of_fragment h)
  rw [hc, h, appendCommand_of_some ho]

/-- What an append command does: nothing in ERROR, an error entry, or the append of a fragment that fits. -/
theorem appendCommand_cases (c : ErrCode) (f : Option Bits) (s : State) :
    (s.ctl = .error ∧ appendCommand c f s = s) ∨ (∃ e, appendCommand c f s = raiseError e s) ∨
      ∃ g, f = some g ∧ s.ctl = .opened ∧ appendCommand c f s = { s with
        buf := writeBits s.buf s.blen g, blen := s.blen + g.length, lastlen := g.length } := by
  by_cases he : s.ctl = .error
  · exact .inl ⟨he, appendCommand_of_error he⟩
  by_cases ho : s.ctl = .opened
  · cases f with
    | none => exact .inr (.inl ⟨c, appendCommand_of_none ho⟩)
    | some g =>
      rw [appendCommand_of_some ho]
      by_cases hg : s.blen + g.length ≤ s.cfg.bufCap
      · exact .inr (.inr ⟨g, rfl, ho, bufAppend_of_fits hg⟩)
      · exact .inr (.inl ⟨.overflow, bufAppend_of_overflow (Nat.not_le.mp hg)⟩)
  · exact .inr (.inl ⟨.sequence, appendCommand_of_sequence he ho⟩)

/-- Settles O27: only the append of a fragment ends in OPEN, and it writes the fragment's bits alone. -/
theorem appendFrame : Obligations.AppendFrame := by
  intro i s t hi hwritten h
  obtain ⟨c, hc⟩ := exec_of_isAppend hi
  obtain rfl := Host.Outcome.next.inj ((hc s).symm.trans h)
  obtain ⟨he, ht⟩ | ⟨e, ht⟩ | ⟨f, hf, ho, ht⟩ := appendCommand_cases c (fragment i) s <;> rw [ht]
  · exact ⟨rfl, rfl, rfl, rfl, fun ho => by simp [he] at ho, fun _ => ⟨rfl, rfl⟩⟩
  · exact ⟨rfl, rfl, rfl, rfl, fun ho => by simp at ho, fun _ => ⟨rfl, rfl⟩⟩
  · refine ⟨rfl, rfl, rfl, rfl, fun _ => ⟨rfl, f, hf, fun k hk => ?_⟩, fun hno => ?_⟩
    · exact getElem?_writeBits_outside f hwritten hk
    · exact absurd ho hno

/-- The stream after an append that fits, whatever was written beyond it (R52). -/
theorem stream_bufAppend_of_fits {f : Bits} {s : State} (h : s.blen + f.length ≤ s.cfg.bufCap) :
    (bufAppend f s).stream = s.stream ++ f := by
  rw [bufAppend_of_fits h]
  exact Laws.take_writeBits_stream s f

/-! ## Repeated commands (20_memory.md R59) -/

theorem execAll_pair {i j : Instr} {s t : State} (h : exec i s = .next t) :
    execAll [i, j] s = exec j t := by
  simp only [execAll, h]
  split <;> simp only [*]

theorem exec_commit_of_opened {s : State} (ho : s.ctl = .opened) (hb : s.blen ≠ 0) :
    exec .commit s = .next { sinkWrite s.stream s with ctl := .done } := by
  have hd : decode (encode .commit) = .legal .commit := by decide
  exact (runWord_of_legal s hd).symm.trans (runWord_of_delivers ((delivers_iff _ s).mpr ⟨hd, ho, hb⟩))

/-- Settles O23: after the first COMMIT the state is DONE, and after the first append it is OPEN with the
fragment at the end of the stream. -/
theorem repeatedCommands : Obligations.RepeatedCommands := by
  refine ⟨fun i s hi => ?_, fun s ho hb => ?_, fun i s f hi ho hfits _ => ?_⟩
  · simp only [List.mem_cons, List.not_mem_nil, or_false] at hi
    obtain rfl | rfl | rfl := hi <;> rfl
  · exact ⟨raiseError .sequence { sinkWrite s.stream s with ctl := .done },
      execAll_pair (exec_commit_of_opened ho (Nat.ne_of_gt hb)), rfl, rfl, rfl⟩
  · have hfit : s.blen + f.length ≤ s.cfg.bufCap := by omega
    have hfirst := bufAppend_of_fits hfit
    have ho' : (bufAppend f s).ctl = .opened := by rw [hfirst]; exact ho
    have hfit' : (bufAppend f s).blen + f.length ≤ (bufAppend f s).cfg.bufCap := by
      rw [hfirst]; dsimp only; omega
    refine ⟨_, (execAll_pair (exec_of_fragment hi ho)).trans (exec_of_fragment hi ho'), ?_⟩
    rw [stream_bufAppend_of_fits hfit', stream_bufAppend_of_fits hfit]

/-! ## The Sink log (20_memory.md R57) -/

/-- A word that changes the Sink log is a COMMIT that delivers. -/
theorem runWord_sinkLog {w : CmdWord} {s t : State} (h : runWord w s = .next t) :
    t.sinkLog = s.sinkLog ∨
      (delivers w s = true ∧ t.sinkLog = s.sinkLog ++ [s.stream] ∧ t.ctl = .done) := by
  cases runWord_wordEffect h with
  | unchanged | raised | started | abandoned | appended => exact .inl rfl
  | delivered hd ho hb => exact .inr ⟨(delivers_iff w s).mpr ⟨hd, ho, hb⟩, rfl, rfl⟩

/-- Settles O46: reads and reset leave the Sink log, and so does every word but a COMMIT that delivers. -/
theorem onlyCommitWritesTheSink : Obligations.OnlyCommitWritesTheSink := by
  intro s t h
  obtain ⟨-, rfl⟩ | ⟨w, rest, hp, hw⟩ | ⟨a, rest, -, rfl⟩ | ⟨rest, -, rfl⟩ := step_cases h
  · exact .inl rfl
  · obtain hlog | ⟨hdel, hlog, hdone⟩ := runWord_sinkLog hw
    · exact .inl hlog
    · obtain ⟨hd, ho, hb⟩ := (delivers_iff _ _).mp hdel
      exact .inr ⟨w, rest, hp, hd, ho, Nat.one_le_iff_ne_zero.mpr hb, hlog, hdone⟩
  · exact .inl rfl
  · exact .inl rfl

/-! ## The beats of a stream, bit by bit (20_memory.md R55, R56) -/

theorem getElem?_fixed (n : Nat) : ∀ {w j : Nat}, j < w → (fixed n w)[j]? = some (n.testBit (w - 1 - j))
  | w + 1, 0, _ => by simp [fixed]
  | w + 1, j + 1, h => by
    rw [fixed, List.getElem?_cons_succ, getElem?_fixed n (by omega)]
    congr 2
    omega

/-- A word made of a string's value has the string's bits from the top down (R8). -/
theorem getLsbD_ofNat_val {s : Bits} {w j : Nat} (hs : s.length = w) (hj : j < w) :
    (BitVec.ofNat w (val s)).getLsbD (w - 1 - j) = s[j]?.getD false := by
  have hbit : s[j]? = some ((val s).testBit (w - 1 - j)) := by
    conv => lhs; rw [← fixed_val s, hs]
    exact getElem?_fixed _ hj
  rw [hbit, BitVec.getLsbD_ofNat, decide_eq_true (by omega), Bool.true_and, Option.getD_some]

theorem getElem?_beatBits (s : Bits) (k : Nat) {j : Nat} (hj : j < 8) :
    (beatBits s k)[j]? = s[8 * k + j]? := by
  rw [beatBits, slice, Nat.add_sub_cancel_left, List.getElem?_take_of_lt hj, List.getElem?_drop]

/-- Bit `7 - j` of beat `k` is stream bit `8k + j`, and 0 beyond the stream. -/
theorem getLsbD_data_beat (s : Bits) (k : Nat) {j : Nat} (hj : j < 8) :
    (beat s k).data.getLsbD (7 - j) = s[8 * k + j]?.getD false := by
  have hlen := length_beatBits s k
  rw [← getElem?_beatBits s k hj]
  refine (getLsbD_ofNat_val (by simp; omega) hj).trans ?_
  obtain hin | hpad := Nat.lt_or_ge j (beatBits s k).length
  · rw [List.getElem?_append_left hin]
  · rw [List.getElem?_append_right hpad, List.getElem?_eq_none hpad]
    rw [List.getElem?_replicate]
    split <;> rfl

theorem toNat_nbits_beat (s : Bits) (k : Nat) : (beat s k).nbits.toNat = min 8 (s.length - 8 * k) := by
  rw [beat, BitVec.toNat_ofNat, Nat.mod_eq_of_lt (by omega)]

theorem getElem?_beats {s : Bits} {k : Nat} (h : k < beatCount s.length) :
    (beats s)[k]? = some (beat s k) := by simp [beats, h]

/-- Settles O49: beat by beat, the fields of the beat and the stream bits it is made of. -/
theorem beatsPackTheStream : Obligations.BeatsPackTheStream := by
  refine ⟨fun s _ => ⟨length_beats s, fun k hk => ⟨beat s k, getElem?_beats hk, fun j hj => ?_,
    toNat_nbits_beat s k, ?_, by simp [beat], beat_last_iff s k, fun hlt => ?_⟩⟩, by decide, by decide⟩
  · rw [getLsbD_data_beat s k hj]
    split
    · rfl
    · rw [List.getElem?_eq_none (by omega), Option.getD_none]
  · rw [toNat_nbits_beat]
    omega
  · rw [beat, BitVec.toNat_ofNat, Nat.mod_eq_of_lt hlt]

/-- Settles O50, by the beats' bits joined in order. -/
theorem unpackRecoversTheStream : Obligations.UnpackRecoversTheStream := unpack_beats

/-! ## The handshakes at the pins (20_memory.md R67 to R69, 70_reset_and_hazards.md R204) -/

theorem cmdReady_iff (p : PortState) (i : PortIn) :
    cmdReady p i = true ↔ i.rst = false ∧ p.work = .ready := by
  simp [cmdReady]

/-- After an edge without reset the Host must hold what was offered or asked and not taken. -/
theorem duties_of_edgeEffect {p q : PortState} {i : PortIn} {d : PortDraw} (hr : i.rst = false)
    (he : EdgeEffect p i d q) :
    q.offered = (holdDuties p i d).offered ∧ q.asked = (holdDuties p i d).asked := by
  cases he with
  | reset hr' => simp [hr] at hr'
  | waited | accepted | worked | startedDelivery | completed | stalled | sentBeat | deliveredLast =>
    exact ⟨rfl, rfl⟩

theorem breaksHold_of_offered {p : PortState} {i : PortIn} {w : CmdWord} (ho : p.offered = some w)
    (hnot : ¬(i.cmdValid = true ∧ i.cmdData = w)) : breaksHold p i = true := by
  have hheld : (i.cmdValid && i.cmdData == w) = false := by simpa using hnot
  simp [breaksHold, ho, hheld]

theorem breaksHold_of_asked {p : PortState} {i : PortIn} {a : RegAddr} (ha : p.asked = some a)
    (hnot : ¬(i.regReq = true ∧ i.regAddr = a)) : breaksHold p i = true := by
  have hheld : (i.regReq && i.regAddr == a) = false := by simpa using hnot
  simp [breaksHold, ha, hheld]

theorem clockEdge_of_breaksHold {p : PortState} {i : PortIn} (d : PortDraw) (hr : i.rst = false)
    (hb : breaksHold p i = true) : clockEdge p i d = .refused .hostBrokeHold := by
  simp [clockEdge, hr, hb]

/-- With no command in progress an edge answers the cycle's read and takes an offered word. -/
theorem edgeEffect_of_ready {p q : PortState} {i : PortIn} {d : PortDraw} (hr : i.rst = false)
    (hw : p.work = .ready) (he : EdgeEffect p i d q) :
    q.core = coreAfterRead p i d ∧ (i.cmdValid = true → q.work = .running i.cmdData) := by
  cases he with
  | waited _ _ hv => exact ⟨rfl, fun hv' => by simp [hv] at hv'⟩
  | accepted => exact ⟨rfl, fun _ => rfl⟩
  | reset hr' => simp [hr] at hr'
  | worked _ _ hw' | startedDelivery _ _ hw' | completed _ _ _ hw' | stalled _ _ _ hw' | sentBeat _ _ _ hw'
  | deliveredLast _ _ _ _ hw' => cases hw.symm.trans hw'

/-- A command in progress stays until its work is done; a COMMIT that delivers then offers its first beat. -/
theorem edgeEffect_of_running {p q : PortState} {i : PortIn} {d : PortDraw} {w : CmdWord}
    (hr : i.rst = false) (hw : p.work = .running w) (he : EdgeEffect p i d q) :
    q.work = .running w ∨ (d.finish = true ∧ q.work = .ready ∧ delivers w p.core = false) ∨
      (d.finish = true ∧ q.work = .sending w 0 ∧ delivers w p.core = true ∧ q.core = p.core) := by
  cases he with
  | worked => exact .inl hw
  | completed w' _ _ hw' hf hd =>
    cases hw.symm.trans hw'
    exact .inr (.inl ⟨hf, rfl, hd⟩)
  | startedDelivery w' _ hw' hf hd =>
    cases hw.symm.trans hw'
    exact .inr (.inr ⟨hf, rfl, hd, rfl⟩)
  | reset hr' => simp [hr] at hr'
  | waited _ hw' | accepted _ hw' | stalled _ _ _ hw' | sentBeat _ _ _ hw' | deliveredLast _ _ _ _ hw' =>
    cases hw.symm.trans hw'

/-- Settles O57: what the edge does by the command in progress, the duties it leaves, and the refusal of a Host
that does not hold its word. -/
theorem commandHandshake : Obligations.CommandHandshake := by
  intro p i d
  refine ⟨cmdReady_iff p i, fun q h hr hv hready => ?_, fun q h hr hv hready => ?_, fun q w h hr hw => ?_,
    fun w hr ho hnot => ?_, fun q h hr => ?_⟩
  · obtain ⟨-, hw⟩ := (cmdReady_iff p i).mp hready
    obtain ⟨-, hrun⟩ := edgeEffect_of_ready hr hw (clockEdge_effect h)
    obtain ⟨hoff, -⟩ := duties_of_edgeEffect hr (clockEdge_effect h)
    exact ⟨hrun hv, by simp [hoff, holdDuties, hready]⟩
  · obtain ⟨hoff, -⟩ := duties_of_edgeEffect hr (clockEdge_effect h)
    simp [hoff, holdDuties, hready, hv]
  · exact edgeEffect_of_running hr hw (clockEdge_effect h)
  · exact clockEdge_of_breaksHold d hr (breaksHold_of_offered ho hnot)
  · rw [clockEdge_of_rst d hr] at h
    cases h
    exact ⟨rfl, rfl⟩

theorem regAck_eq_some {p : PortState} {i : PortIn} {d : PortDraw} {v : RegWord}
    (h : regAck p i d = some v) :
    i.rst = false ∧ p.work = .ready ∧ i.regReq = true ∧ v = readReg p.core i.regAddr := by
  simp only [regAck, Option.ite_none_right_eq_some, Bool.and_eq_true, Option.some.injEq, cmdReady_iff] at h
  obtain ⟨⟨⟨⟨hr, hw⟩, hreq⟩, -⟩, hv⟩ := h
  exact ⟨hr, hw, hreq, hv.symm⟩

/-- Settles O58: an acknowledge means that no command is in progress, and the edge then adds that one word
read. -/
theorem readHandshake : Obligations.ReadHandshake := by
  intro p i d
  refine ⟨fun v => regAck_eq_some, fun q v h hack => ?_, fun q h hr hack hreq => ?_, fun a hr ha hnot => ?_⟩
  · obtain ⟨hr, hw, -, rfl⟩ := regAck_eq_some hack
    obtain ⟨hcore, hrun⟩ := edgeEffect_of_ready hr hw (clockEdge_effect h)
    obtain ⟨-, hasked⟩ := duties_of_edgeEffect hr (clockEdge_effect h)
    refine ⟨?_, by simp [hasked, holdDuties, hack], hrun⟩
    rw [hcore, coreAfterRead, hack]
    rfl
  · obtain ⟨-, hasked⟩ := duties_of_edgeEffect hr (clockEdge_effect h)
    simp [hasked, holdDuties, hack, hreq]
  · exact clockEdge_of_breaksHold d hr (breaksHold_of_asked ha hnot)

theorem snkBeat_eq_some {p : PortState} {i : PortIn} {b : Beat} (h : snkBeat p i = some b) :
    ∃ w k, p.work = .sending w k ∧ b = beat p.core.stream k := by
  unfold snkBeat at h
  split at h
  · next w k hw =>
    split at h
    · cases h
    · exact ⟨w, k, hw, (Option.some.inj h).symm⟩
  · cases h
  · cases h

theorem snkBeat_of_sending {p : PortState} {i : PortIn} {w : CmdWord} {k : Nat} (hr : i.rst = false)
    (hw : p.work = .sending w k) : snkBeat p i = some (beat p.core.stream k) := by
  simp [snkBeat, hw, hr]

/-- A delivery waits for the Sink, goes on to its next beat, or with the last one completes its COMMIT. -/
theorem edgeEffect_of_sending {p q : PortState} {i : PortIn} {d : PortDraw} {w : CmdWord} {k : Nat}
    (h : PortInv p) (hr : i.rst = false) (hw : p.work = .sending w k) (he : EdgeEffect p i d q) :
    (i.snkReady = false ∧ q.work = p.work ∧ q.core = p.core) ∨
      (i.snkReady = true ∧ (beat p.core.stream k).last = false ∧ q.work = .sending w (k + 1) ∧
        q.core = p.core) ∨
      (i.snkReady = true ∧ (beat p.core.stream k).last = true ∧ q.work = .ready ∧
        runWord w p.core = .next q.core) := by
  cases he with
  | stalled _ _ _ _ hs => exact .inl ⟨hs, rfl, rfl⟩
  | sentBeat _ _ _ hw' hs hl =>
    cases hw.symm.trans hw'
    exact .inr (.inl ⟨hs, hl, rfl, rfl⟩)
  | deliveredLast _ _ c _ hw' hs hl hc =>
    cases hw.symm.trans hw'
    exact .inr (.inr ⟨hs, hl, rfl, hc.trans (congrArg _ (core_of_deliveredLast h hw hl hc).symm)⟩)
  | reset hr' => simp [hr] at hr'
  | waited _ hw' | accepted _ hw' | worked _ _ hw' | startedDelivery _ _ hw' | completed _ _ _ hw' =>
    cases hw.symm.trans hw'

/-- Settles O59: the beat on the port is the one the delivery stands at, and the edge moves the delivery. -/
theorem sinkHandshake : Obligations.SinkHandshake := by
  intro p q i d h hr he
  have hedge {w k} (hw : p.work = .sending w k) := edgeEffect_of_sending h hr hw (clockEdge_effect he)
  refine ⟨fun b hb => ?_, fun b hb hs => ?_, fun b w k hb hs hw hl => ?_, fun b hb hs hl => ?_⟩
  · obtain ⟨w, k, hw, rfl⟩ := snkBeat_eq_some hb
    obtain ⟨hdel, hk, -⟩ := delivery_of_sending h hw
    exact ⟨w, k, hw, ((delivers_iff w _).mp hdel).1, getElem?_beats hk⟩
  · obtain ⟨w, k, hw, rfl⟩ := snkBeat_eq_some hb
    obtain ⟨-, hwork, hcore⟩ | ⟨hs', -⟩ | ⟨hs', -⟩ := hedge hw
    · exact ⟨hwork, hcore, fun i' hr' => by rw [snkBeat_of_sending hr' (hwork.trans hw), hcore]⟩
    all_goals simp [hs] at hs'
  · cases (snkBeat_of_sending hr hw).symm.trans hb
    obtain ⟨hs', -⟩ | ⟨-, -, hwork, hcore⟩ | ⟨-, hl', -⟩ := hedge hw
    · simp [hs] at hs'
    · exact ⟨hwork, hcore⟩
    · simp [hl] at hl'
  · obtain ⟨w, k, hw, rfl⟩ := snkBeat_eq_some hb
    obtain ⟨hs', -⟩ | ⟨-, hl', -⟩ | ⟨-, -, hwork, hc⟩ := hedge hw
    · simp [hs] at hs'
    · simp [hl] at hl'
    · obtain ⟨hdel, -, -⟩ := delivery_of_sending h hw
      have hcore := Host.Outcome.next.inj ((runWord_of_delivers hdel).symm.trans hc)
      rw [← hcore]
      exact ⟨hwork, rfl, rfl⟩

end Sys2Proof.Proofs

namespace Sys2Proof.Proofs

open Sys2Proof Sys2Proof.Machine Sys2Proof.Claims Sys2Proof.Laws

/-! # The encoding (30_encoding.md)

## The fields of a word as numbers (R70) -/

theorem toNat_opField (w : CmdWord) : (opField w).toNat = w.toNat / 2 ^ 60 := by
  rw [opField, BitVec.extractLsb'_toNat, Nat.shiftRight_eq_div_pow]
  omega

theorem toNat_rsvField (w : CmdWord) : (rsvField w).toNat = w.toNat / 2 ^ 37 % 2 ^ 23 := by
  rw [rsvField, BitVec.extractLsb'_toNat, Nat.shiftRight_eq_div_pow]

theorem toNat_lm1Field (w : CmdWord) : (lm1Field w).toNat = w.toNat / 2 ^ 32 % 32 := by
  rw [lm1Field, BitVec.extractLsb'_toNat, Nat.shiftRight_eq_div_pow]

theorem toNat_dField (w : CmdWord) : (dField w).toNat = w.toNat % 2 ^ 32 := by
  rw [dField, BitVec.extractLsb'_toNat, Nat.shiftRight_zero]

/-- The four fields cover the word. -/
theorem toNat_eq_of_fields (w : CmdWord) : w.toNat = (opField w).toNat * 2 ^ 60 +
    (rsvField w).toNat * 2 ^ 37 + (lm1Field w).toNat * 2 ^ 32 + (dField w).toNat := by
  rw [toNat_opField, toNat_rsvField, toNat_lm1Field, toNat_dField]
  omega

theorem toNat_enc (op : BitVec 4) (lm1 : BitVec 5) (d : Operand) :
    (enc op lm1 d).toNat = op.toNat * 2 ^ 60 + lm1.toNat * 2 ^ 32 + d.toNat := by
  rw [toNat_eq_of_fields, opField_enc, rsvField_enc, lm1Field_enc, dField_enc, BitVec.toNat_ofNat]
  omega

/-- With `RSV` = 0 the other three fields make the word: no bit of it is dropped. -/
theorem enc_fields {w : CmdWord} (h : rsvField w = 0#23) :
    enc (opField w) (lm1Field w) (dField w) = w := by
  apply BitVec.eq_of_toNat_eq
  rw [toNat_enc, toNat_eq_of_fields w, h, BitVec.toNat_ofNat]
  omega

/-! ## The decoder and the encoder (R71, R73, R76) -/

/-- `LM1` in the word of the instruction (R71). -/
def lm1Of : Instr → BitVec 5
  | .bits lm1 _ => lm1
  | _ => 0#5

/-- `D` in the word of the instruction (R71). -/
def dOf : Instr → Operand
  | .omega n => n
  | .fix7 v => v
  | .bits _ d => d
  | _ => 0#32

theorem encode_eq_enc (i : Instr) : encode i = enc (opcode i) (lm1Of i) (dOf i) := by cases i <;> rfl

theorem decodeZ_eq_legal_iff {w : CmdWord} {i j : Instr} : decodeZ w i = .legal j ↔
    rsvField w = 0#23 ∧ lm1Field w = 0#5 ∧ dField w = 0#32 ∧ i = j := by
  unfold decodeZ
  split
  next hr => simp [hr]
  split
  next hu =>
    simp only [reduceCtorEq, false_iff]
    tauto
  next hr hu => simp_all

theorem decodeD_eq_legal_iff {w : CmdWord} {mk : Operand → Instr} {j : Instr} :
    decodeD w mk = .legal j ↔ rsvField w = 0#23 ∧ lm1Field w = 0#5 ∧ mk (dField w) = j := by
  unfold decodeD
  split
  next hr => simp [hr]
  split
  next hl => simp [hl]
  next hr hl => simp_all

theorem decodeB_eq_legal_iff {w : CmdWord} {j : Instr} : decodeB w = .legal j ↔
    rsvField w = 0#23 ∧ j.wellFormed = true ∧ .bits (lm1Field w) (dField w) = j := by
  unfold decodeB
  split
  next hr => simp [hr]
  split
  next hr hwf =>
    rw [Decoded.legal.injEq]
    exact ⟨fun h => ⟨not_not.mp hr, h ▸ hwf, h⟩, fun ⟨_, _, h⟩ => h⟩
  next hwf =>
    simp only [reduceCtorEq, false_iff]
    rintro ⟨-, hj, rfl⟩
    exact hwf hj

/-- What the decoder accepts, field by field: the row of R71 and R73 for the instruction, and R74's
condition on the payload. -/
theorem decode_eq_legal_iff {w : CmdWord} {i : Instr} : decode w = .legal i ↔
    opField w = opcode i ∧ rsvField w = 0#23 ∧ lm1Field w = lm1Of i ∧ dField w = dOf i ∧
      i.wellFormed = true := by
  constructor
  · intro h
    unfold decode at h
    split at h
    case h_8 => cases h
    case h_5 hop =>
      obtain ⟨hr, hwf, rfl⟩ := decodeB_eq_legal_iff.mp h
      exact ⟨BitVec.eq_of_toNat_eq hop, hr, rfl, rfl, hwf⟩
    case h_3 hop | h_4 hop =>
      obtain ⟨hr, hl, rfl⟩ := decodeD_eq_legal_iff.mp h
      exact ⟨BitVec.eq_of_toNat_eq hop, hr, hl, rfl, rfl⟩
    case h_1 hop | h_2 hop | h_6 hop | h_7 hop =>
      obtain ⟨hr, hl, hd, rfl⟩ := decodeZ_eq_legal_iff.mp h
      exact ⟨BitVec.eq_of_toNat_eq hop, hr, hl, hd, rfl⟩
  · rintro ⟨hop, hr, hl, hd, hwf⟩
    rw [decode, hop]
    cases i with
    | omega n | fix7 n => exact decodeD_eq_legal_iff.mpr ⟨hr, hl, congrArg _ hd⟩
    | bits lm1 d => exact decodeB_eq_legal_iff.mpr ⟨hr, hwf, congrArg₂ Instr.bits hl hd⟩
    | nop | openC | commit | abort => exact decodeZ_eq_legal_iff.mpr ⟨hr, hl, hd, rfl⟩

/-- Settles O3: the encoder writes exactly the fields the decoder asks for. -/
theorem decodeOfEncodeIsTheInstruction : Obligations.DecodeOfEncodeIsTheInstruction := by
  intro i h
  rw [encode_eq_enc, decode_eq_legal_iff]
  exact ⟨opField_enc _ _ _, rsvField_enc _ _ _, lm1Field_enc _ _ _, dField_enc _ _ _, h⟩

/-- Settles O4: the fields the decoder reads make the whole word. -/
theorem encodeOfDecodeIsTheWord : Obligations.EncodeOfDecodeIsTheWord := by
  intro w i h
  obtain ⟨hop, hr, hl, hd, hwf⟩ := decode_eq_legal_iff.mp h
  rw [encode_eq_enc, ← hop, ← hl, ← hd]
  exact ⟨hwf, enc_fields hr⟩

/-- Settles O6, by running the decoder. -/
theorem sampleWordsDecode : Obligations.SampleWordsDecode := by
  unfold Obligations.SampleWordsDecode
  decide

/-! ## The predicate of R74 -/

/-- R74 in the terms of the fields. -/
theorem legalWord_iff_fields (w : CmdWord) : LegalWord w ↔ rsvField w = 0#23 ∧
    (((opField w).toNat ∈ [0x0, 0x1, 0x5, 0x6] ∧ lm1Field w = 0#5 ∧ dField w = 0#32) ∨
      ((opField w).toNat ∈ [0x2, 0x3] ∧ lm1Field w = 0#5) ∨
      ((opField w).toNat = 0x4 ∧ (dField w).toNat < 2 ^ ((lm1Field w).toNat + 1))) := by
  have hlen : ((lm1Field w).toNat + 1 = 32 ∨ (dField w).toNat / 2 ^ ((lm1Field w).toNat + 1) = 0) ↔
      (dField w).toNat < 2 ^ ((lm1Field w).toNat + 1) := by
    rw [Nat.div_eq_zero_iff_lt (by positivity), or_iff_right_iff_imp]
    intro h
    rw [h]
    exact (dField w).isLt
  rw [← hlen]
  simp only [LegalWord, ← BitVec.toNat_inj, toNat_opField, toNat_lm1Field, toNat_rsvField, toNat_dField,
    BitVec.toNat_ofNat, List.mem_cons, List.not_mem_nil, or_false]
  omega

theorem legalWord_iff_exists_legal (w : CmdWord) : LegalWord w ↔ ∃ i, decode w = .legal i := by
  rw [legalWord_iff_fields]
  unfold decode
  split
  case h_1 hop | h_2 hop | h_6 hop | h_7 hop => simp [hop, decodeZ_eq_legal_iff]
  case h_3 hop | h_4 hop => simp [hop, decodeD_eq_legal_iff]
  case h_5 hop => simp [hop, decodeB_eq_legal_iff, Instr.wellFormed]
  case h_8 => simp_all

theorem extractLsb'_eq_zero_iff (w : CmdWord) (a n : Nat) :
    w.extractLsb' a n = 0#n ↔ w.toNat % 2 ^ (a + n) / 2 ^ a = 0 := by
  rw [← BitVec.toNat_inj, BitVec.extractLsb'_toNat, Nat.shiftRight_eq_div_pow, Nat.pow_add,
    Nat.mod_mul_right_div_self, BitVec.toNat_ofNat, Nat.zero_mod]

theorem shiftRight_dField_eq_zero_iff (w : CmdWord) (len : Nat) :
    dField w >>> len = 0#32 ↔ w.toNat % 2 ^ 32 / 2 ^ len = 0 := by
  rw [← BitVec.toNat_inj, BitVec.toNat_ushiftRight, Nat.shiftRight_eq_div_pow, toNat_dField,
    BitVec.toNat_ofNat, Nat.zero_mod]

theorem legalWord_iff_legal (w : CmdWord) : LegalWord w ↔ legal w = true := by
  unfold legal LegalWord
  rw [← toNat_opField, ← toNat_lm1Field]
  split
  case h_8 => simp_all
  all_goals
    rename_i hop
    simp [hop, extractLsb'_eq_zero_iff, shiftRight_dField_eq_zero_iff]

theorem exists_illegal {w : CmdWord} (h : ∀ i, decode w ≠ .legal i) : ∃ why, decode w = .illegal why := by
  cases hd : decode w with
  | legal i => exact absurd hd (h i)
  | illegal why => exact ⟨why, rfl⟩

/-- Settles O1: decoder, `legal` and predicate agree opcode by opcode, and an illegal word is R182's. -/
theorem legalExactlyByPredicate : Obligations.LegalExactlyByPredicate := by
  intro w
  refine ⟨legalWord_iff_exists_legal w, legalWord_iff_legal w, fun hw s => ?_⟩
  obtain ⟨why, hwhy⟩ := exists_illegal fun i hi => hw ((legalWord_iff_exists_legal w).mpr ⟨i, hi⟩)
  rw [runWord_of_illegal s hwhy, illegalWord]
  exact ⟨fun h => congrArg _ (unlessError_of_not_error h), fun h => congrArg _ (unlessError_of_error h)⟩

/-! ## Reserved and unused bits (R75) -/

theorem lm1Of_eq_zero {i : Instr} (h : opcode i ≠ 0x4#4) : lm1Of i = 0#5 := by
  cases i with
  | bits lm1 d => exact absurd rfl h
  | _ => rfl

theorem dOf_eq_zero {i : Instr} (h : (opcode i).toNat ∈ [0x0, 0x1, 0x5, 0x6]) : dOf i = 0#32 := by
  cases i with
  | omega n | fix7 n | bits lm1 n => simp [opcode] at h
  | _ => rfl

theorem dOf_lt_of_bits {i : Instr} (hop : opcode i = 0x4#4) (h : i.wellFormed = true) :
    (dOf i).toNat < 2 ^ ((lm1Of i).toNat + 1) := by
  cases i with
  | bits lm1 d => exact of_decide_eq_true h
  | _ => cases hop

theorem decode_of_reservedOpcode {w : CmdWord} (h : 0x7 ≤ (opField w).toNat) :
    decode w = .illegal (.reservedOpcode (opField w)) := by
  unfold decode
  split
  case h_8 => rfl
  all_goals omega

/-- Settles O2: a legal word has the fields of its instruction, so a word without them is illegal. -/
theorem reservedWordsAreIllegal : Obligations.ReservedWordsAreIllegal := by
  refine ⟨fun w => decode_of_reservedOpcode, fun w hr => exists_illegal fun i h => ?_,
    fun w hop hl => exists_illegal fun i h => ?_, fun w hop hd => exists_illegal fun i h => ?_,
    fun w hop ⟨k, hk, hbit⟩ => exists_illegal fun i h => ?_, fun w => ?_⟩
  · obtain ⟨-, hr', -⟩ := decode_eq_legal_iff.mp h
    exact hr hr'
  · obtain ⟨hop', -, hl', -⟩ := decode_eq_legal_iff.mp h
    exact hl (hl'.trans (lm1Of_eq_zero (hop' ▸ hop)))
  · obtain ⟨hop', -, -, hd', -⟩ := decode_eq_legal_iff.mp h
    exact hd (hd'.trans (dOf_eq_zero (hop' ▸ hop)))
  · obtain ⟨hop', -, hl', hd', hwf⟩ := decode_eq_legal_iff.mp h
    have hlt : (dField w).toNat < 2 ^ k := by
      rw [hl'] at hk
      rw [hd']
      exact (dOf_lt_of_bits (hop' ▸ hop) hwf).trans_le (Nat.pow_le_pow_right two_pos hk)
    exact Bool.false_ne_true ((Nat.testBit_lt_two_pow hlt).symm.trans hbit)
  · cases hd : decode w with
    | legal i => exact .inl ⟨i, rfl, (encodeOfDecodeIsTheWord w i hd).2⟩
    | illegal why => exact .inr ⟨why, rfl⟩

/-! ## The opcode table (R73, spec/opcode_table.json) -/

/-- A word matches a row exactly when it does so in each field. -/
theorem matches_iff_fields (r : OpcodeRow) (w : CmdWord) : r.matches w = true ↔
    opField w &&& opField r.mask = opField r.pattern ∧
    rsvField w &&& rsvField r.mask = rsvField r.pattern ∧
    lm1Field w &&& lm1Field r.mask = lm1Field r.pattern ∧
    dField w &&& dField r.mask = dField r.pattern := by
  rw [OpcodeRow.matches, beq_iff_eq]
  simp only [opField, rsvField, lm1Field, dField, ← BitVec.extractLsb'_and]
  constructor
  · intro h
    simp [h]
  · rintro ⟨hop, hr, hl, hd⟩
    apply BitVec.eq_of_toNat_eq
    rw [toNat_eq_of_fields, toNat_eq_of_fields r.pattern, opField, hop, rsvField, hr, lm1Field, hl, dField, hd]
    rfl

/-- The masks of the table take fields whole: all of `OP` and `RSV`, `LM1` outside BITS, and `D` where
there is no operand. -/
theorem matches_iff_of_mem {r : OpcodeRow} {w : CmdWord} (hr : r ∈ opcodeTable) : r.matches w = true ↔
    opField w = opField r.pattern ∧ rsvField w = 0#23 ∧ (opField r.pattern ≠ 0x4#4 → lm1Field w = 0#5) ∧
    ((opField r.pattern).toNat ∈ [0x0, 0x1, 0x5, 0x6] → dField w = 0#32) := by
  have hop : opField w &&& 0xF#4 = opField w := BitVec.and_allOnes
  have hrsv : rsvField w &&& 0x7FFFFF#23 = rsvField w := BitVec.and_allOnes
  have hl : lm1Field w &&& 0x1F#5 = lm1Field w := BitVec.and_allOnes
  have hd : dField w &&& 0xFFFFFFFF#32 = dField w := BitVec.and_allOnes
  simp only [opField, rsvField, lm1Field, dField] at hop hrsv hl hd
  rw [matches_iff_fields]
  simp only [opcodeTable, List.mem_cons, List.not_mem_nil, or_false] at hr
  rcases hr with rfl | rfl | rfl | rfl | rfl | rfl | rfl <;>
    simp [opField, rsvField, lm1Field, dField, hop, hrsv, hl, hd]

theorem mnemonic_of_opcode : ∀ i : Instr, ∀ r ∈ opcodeTable, opField r.pattern = opcode i →
    r.mnemonic = i.mnemonic
  | .nop | .openC | .omega _ | .fix7 _ | .bits _ _ | .commit | .abort => by
    simp only [opcode, Instr.mnemonic]
    decide

/-- The opcode names one row of the table. -/
theorem filter_opcode : ∀ i : Instr,
    (opcodeTable.filter (opField ·.pattern = opcode i)).map OpcodeRow.mnemonic = [i.mnemonic]
  | .nop | .openC | .omega _ | .fix7 _ | .bits _ _ | .commit | .abort => rfl

theorem matches_iff_of_legal {w : CmdWord} {i : Instr} {r : OpcodeRow} (h : decode w = .legal i)
    (hr : r ∈ opcodeTable) : r.matches w = true ↔ opField r.pattern = opcode i := by
  obtain ⟨hop, hrsv, hl, hd, -⟩ := decode_eq_legal_iff.mp h
  rw [matches_iff_of_mem hr, hop, hl, hd]
  refine ⟨fun ⟨hp, _⟩ => hp.symm, fun hp => ⟨hp.symm, hrsv, ?_⟩⟩
  rw [hp]
  exact ⟨lm1Of_eq_zero, dOf_eq_zero⟩

/-- Settles O5: the row of a legal word is the one of its opcode, and a row's fields are what the
decoder asks for, but for BITS's payload. -/
theorem decodeFollowsTheOpcodeTable : Obligations.DecodeFollowsTheOpcodeTable := by
  refine ⟨fun w i h => ?_, fun w r hr hm hb => ?_, fun w r hr hm hb => ?_⟩
  · rw [← filter_opcode i, List.filter_congr fun r hr => ?_]
    rw [Bool.eq_iff_iff, matches_iff_of_legal h hr, decide_eq_true_iff]
  · obtain ⟨hop, hrsv, hl, hd⟩ := (matches_iff_of_mem hr).mp hm
    have hlegal {i : Instr} (hi : opField r.pattern = opcode i) (hl : lm1Field w = lm1Of i)
        (hd : dField w = dOf i) (hwf : i.wellFormed = true) :
        ∃ i, decode w = .legal i ∧ i.mnemonic = r.mnemonic :=
      ⟨i, decode_eq_legal_iff.mpr ⟨hop.trans hi, hrsv, hl, hd, hwf⟩, (mnemonic_of_opcode i r hr hi).symm⟩
    simp only [opcodeTable, List.mem_cons, List.not_mem_nil, or_false] at hr
    rcases hr with rfl | rfl | rfl | rfl | rfl | rfl | rfl
    · exact hlegal (i := .nop) rfl (hl (by decide)) (hd (by decide)) rfl
    · exact hlegal (i := .openC) rfl (hl (by decide)) (hd (by decide)) rfl
    · exact hlegal (i := .omega (dField w)) rfl (hl (by decide)) rfl rfl
    · exact hlegal (i := .fix7 (dField w)) rfl (hl (by decide)) rfl rfl
    · exact absurd rfl hb
    · exact hlegal (i := .commit) rfl (hl (by decide)) (hd (by decide)) rfl
    · exact hlegal (i := .abort) rfl (hl (by decide)) (hd (by decide)) rfl
  · obtain ⟨hop, hrsv, -⟩ := (matches_iff_of_mem hr).mp hm
    have hp : ∀ r ∈ opcodeTable, r.mnemonic = "bits" → opField r.pattern = 0x4#4 := by decide
    rw [decode_eq_legal_iff, hop, hp r hr hb]
    simp [hrsv, opcode, lm1Of, dOf, Instr.wellFormed]

/-! ## The assembler's words (R77) -/

/-- `enc` of fields given as numbers. -/
theorem enc_eq_wordOf (op : BitVec 4) {lm1 d : Nat} (hl : lm1 < 32) (hd : d < 2 ^ 32) :
    enc op (BitVec.ofNat 5 lm1) (BitVec.ofNat 32 d) = wordOf op.toNat lm1 d := by
  apply BitVec.eq_of_toNat_eq
  rw [wordOf, toNat_enc]
  simp only [BitVec.toNat_ofNat]
  omega

theorem encode_omega {n : Nat} (h : n < 2 ^ 32) : encode (.omega (BitVec.ofNat 32 n)) = wordOf 0x2 0 n :=
  enc_eq_wordOf 0x2#4 (by omega) h

theorem encode_fix7 {v : Nat} (h : v < 2 ^ 32) : encode (.fix7 (BitVec.ofNat 32 v)) = wordOf 0x3 0 v :=
  enc_eq_wordOf 0x3#4 (by omega) h

theorem encode_bits {len p : Nat} (hlen : len ≤ 32) (hp : p < 2 ^ len) :
    encode (.bits (BitVec.ofNat 5 (len - 1)) (BitVec.ofNat 32 p)) = wordOf 0x4 (len - 1) p :=
  enc_eq_wordOf 0x4#4 (by omega) (hp.trans_le (Nat.pow_le_pow_right two_pos hlen))

theorem asmOne_ite {c : Prop} [Decidable c] {i : Instr} {w : CmdWord} (h : c → encode i = w) :
    asmOne (if c then some i else none) = if c then some [w] else none := by
  split
  next hc => rw [asmOne, Option.map_some, h hc]
  next hc => rfl

theorem assemble_bits (len p : Nat) : assemble (.bits len p) =
    if 1 ≤ len ∧ len ≤ 32 ∧ p < 2 ^ len then some [wordOf 0x4 (len - 1) p] else none :=
  asmOne_ite fun ⟨_, hlen, hp⟩ => encode_bits hlen hp

/-- The constraint on the payload always holds for a string of its own length. -/
theorem assemble_bitsStr (s : Bits) : assemble (.bitsStr s) =
    if 1 ≤ s.length ∧ s.length ≤ 32 then some [wordOf 0x4 (s.length - 1) (val s)] else none := by
  refine (assemble_bits s.length (val s)).trans ?_
  simp only [val_lt, and_true]

/-- Settles O38, form by form. -/
theorem assemblerWords : Obligations.AssemblerWords :=
  ⟨by decide, by decide, by decide, by decide, fun _ => asmOne_ite encode_omega,
    fun _ => asmOne_ite encode_fix7, assemble_bits, assemble_bitsStr⟩

/-! ## The pseudo-instructions (R78) -/

/-- Chunk `i` of the string (R78). -/
def chunk (s : Bits) (i : Nat) : Bits := (s.drop (32 * i)).take (min (32 * i + 32) s.length - 32 * i)

theorem chunkCommands_eq (s : Bits) :
    chunkCommands s = ((List.range ((s.length + 31) / 32)).map (chunk s)).map bitsOf := by
  rw [List.map_map]
  rfl

theorem length_chunk {s : Bits} {i : Nat} (h : i < (s.length + 31) / 32) :
    1 ≤ (chunk s i).length ∧ (chunk s i).length ≤ 32 := by
  rw [chunk, List.length_take, List.length_drop]
  omega

theorem chunk_succ (s : Bits) (i : Nat) : chunk s (i + 1) = chunk (s.drop 32) i := by
  have hlen : min (32 * (i + 1) + 32) s.length - 32 * (i + 1) =
      min (32 * i + 32) (s.length - 32) - 32 * i := by omega
  rw [chunk, chunk, List.drop_drop, List.length_drop, hlen, Nat.mul_succ, Nat.add_comm]

theorem chunksOf_eq : ∀ {fuel : Nat} {s : Bits}, 1 ≤ s.length → s.length ≤ fuel →
    chunksOf fuel s = (List.range ((s.length + 31) / 32)).map (chunk s)
  | 0, _, h1, hf => absurd (h1.trans hf) (by decide)
  | fuel + 1, s, h1, hf => by
    rw [chunksOf, lMax]
    split
    next hshort =>
      rw [show (s.length + 31) / 32 = 1 by omega, List.range_one, List.map_singleton]
      simp [chunk, hshort]
    next hlong =>
      have hrest : (s.length + 31) / 32 = ((s.drop 32).length + 31) / 32 + 1 := by
        rw [List.length_drop]
        omega
      rw [chunksOf_eq (by rw [List.length_drop]; omega) (by rw [List.length_drop]; omega), hrest,
        List.range_succ_eq_map, List.map_cons, List.map_map]
      congr 1
      · simp [chunk]
      · exact List.map_congr_left fun i _ => (chunk_succ s i).symm

theorem allOf_map_some : ∀ is : List Instr, allOf (is.map some) = some is
  | [] => rfl
  | i :: is => by rw [List.map_cons, allOf, allOf_map_some is, Option.map_some]

theorem asmBitsStr_of_chunk {c : Bits} (h : 1 ≤ c.length ∧ c.length ≤ 32) :
    asmBitsStr c = some (bitsOf c) := if_pos ⟨h.1, h.2, val_lt c⟩

theorem asmCw_eq {s : Bits} (h : 1 ≤ s.length) : asmCw s = some (chunkCommands s) := by
  have hchunks : (chunksOf s.length s).map asmBitsStr = (chunkCommands s).map some := by
    rw [chunksOf_eq h le_rfl, chunkCommands_eq, List.map_map, List.map_map, List.map_map]
    exact List.map_congr_left fun i hi => asmBitsStr_of_chunk (length_chunk (List.mem_range.mp hi))
  rw [asmCw, if_neg (by omega), hchunks, allOf_map_some]

theorem wellFormed_bitsOf {c : Bits} (h : 1 ≤ c.length ∧ c.length ≤ 32) : (bitsOf c).wellFormed = true := by
  have hlen : c.length - 1 + 1 = c.length := Nat.sub_add_cancel h.1
  rw [bitsOf, Instr.wellFormed, decide_eq_true_iff, BitVec.toNat_ofNat, BitVec.toNat_ofNat,
    Nat.mod_eq_of_lt (a := c.length - 1) (by omega), hlen]
  exact (Nat.mod_le _ _).trans_lt (val_lt c)

theorem assemble_entry {sym : Nat} {s : Bits} {ws : List CmdWord} (hsym : sym < 2 ^ 32)
    (hs : s.length < 2 ^ 32) (h : assemble (.cw s) = some ws) :
    assemble (.entry sym s) = some (wordOf 0x3 0 sym :: wordOf 0x2 0 s.length :: ws) := by
  obtain ⟨is, hcw, rfl⟩ := Option.map_eq_some_iff.mp h
  rw [assemble, asmEntry, asmFix7, asmOmega, if_pos hsym, if_pos hs, hcw, ← encode_fix7 hsym,
    ← encode_omega hs]
  rfl

/-- Settles O37: the chunks the loop takes are those of R78, and each is one BITS command. -/
theorem pseudoInstructionExpansions : Obligations.PseudoInstructionExpansions := by
  refine ⟨fun s h => ?_, fun s h i hi => ?_, fun sym s ws => assemble_entry, fun w h => if_pos h⟩
  · rw [assemble, asmCw_eq h, Option.map_some]
  · obtain ⟨k, hk, rfl⟩ := List.mem_map.mp hi
    exact wellFormed_bitsOf (length_chunk (List.mem_range.mp hk))

/-! ## The pieces of a line of text (R77) -/

/-- A blank of the assembler's text. -/
def blank (c : Char) : Bool := c == ' ' || c == '\t'

/-- A piece of text that the assembler neither cuts nor trims: no blank, comma or semicolon in it. -/
structure Token (l : List Char) : Prop where
  ne_nil : l ≠ []
  not_blank : ∀ c ∈ l, blank c = false
  ne_comma : ∀ c ∈ l, c ≠ ','
  ne_semicolon : ∀ c ∈ l, c ≠ ';'

/-- The text begins and ends with a character that is not a blank. -/
structure Trimmed (l : List Char) : Prop where
  ne_nil : l ≠ []
  head : ∀ c ∈ l.head?, blank c = false
  last : ∀ c ∈ l.getLast?, blank c = false

theorem token_iff {l : List Char} :
    Token l ↔ l ≠ [] ∧ ∀ c ∈ l, blank c = false ∧ c ≠ ',' ∧ c ≠ ';' := by
  constructor
  · rintro ⟨hne, hblank, hcomma, hsemi⟩
    exact ⟨hne, fun c hc => ⟨hblank c hc, hcomma c hc, hsemi c hc⟩⟩
  · rintro ⟨hne, h⟩
    simp only [forall_and] at h
    obtain ⟨hblank, hcomma, hsemi⟩ := h
    exact ⟨hne, hblank, hcomma, hsemi⟩

theorem trimmed_of_token {l : List Char} (h : Token l) : Trimmed l :=
  ⟨h.ne_nil, fun c hc => h.not_blank c (List.mem_of_mem_head? hc),
    fun c hc => h.not_blank c (List.mem_of_mem_getLast? hc)⟩

theorem token_append {a b : List Char} (ha : Token a) (hb : Token b) : Token (a ++ b) :=
  ⟨by simp [ha.ne_nil], List.forall_mem_append.mpr ⟨ha.not_blank, hb.not_blank⟩,
    List.forall_mem_append.mpr ⟨ha.ne_comma, hb.ne_comma⟩,
    List.forall_mem_append.mpr ⟨ha.ne_semicolon, hb.ne_semicolon⟩⟩

theorem trimmed_append {a b : List Char} (ha : Trimmed a) (sep : List Char) (hb : Trimmed b) :
    Trimmed (a ++ (sep ++ b)) := by
  obtain ⟨hane, hhead, -⟩ := ha
  obtain ⟨hbne, -, hlast⟩ := hb
  refine ⟨by simp [hane], ?_, ?_⟩
  · rwa [List.head?_append_of_ne_nil _ hane]
  · rwa [List.getLast?_append_of_ne_nil _ (by simp [hbne]), List.getLast?_append_of_ne_nil _ hbne]

theorem trimLeft_of_head {l : List Char} (h : ∀ c ∈ l.head?, blank c = false) : trimLeft l = l := by
  cases l with
  | nil => rfl
  | cons c l => exact List.dropWhile_cons_of_neg (Bool.eq_false_iff.mp (h c rfl))

theorem trimBoth_of_trimmed {l : List Char} (h : Trimmed l) : trimBoth l = l := by
  obtain ⟨-, hhead, hlast⟩ := h
  rw [trimBoth, trimLeft_of_head hhead, trimLeft_of_head (by rwa [List.head?_reverse]), List.reverse_reverse]

theorem splitCommas_cons {c : Char} {l p : List Char} {ps : List (List Char)} (hc : c ≠ ',')
    (hl : splitCommas l = p :: ps) : splitCommas (c :: l) = (c :: p) :: ps := by
  rw [splitCommas.eq_3 _ _ hc, hl]

theorem splitCommas_append_comma {l : List Char} (h : ∀ c ∈ l, c ≠ ',') (r : List Char) :
    splitCommas (l ++ ',' :: r) = l :: splitCommas r := by
  induction l with
  | nil => rfl
  | cons c l ih =>
    obtain ⟨hc, hl⟩ := List.forall_mem_cons.mp h
    exact splitCommas_cons hc (ih hl)

theorem splitCommas_of_no_comma {l : List Char} (h : ∀ c ∈ l, c ≠ ',') : splitCommas l = [l] := by
  induction l with
  | nil => rfl
  | cons c l ih =>
    obtain ⟨hc, hl⟩ := List.forall_mem_cons.mp h
    exact splitCommas_cons hc (ih hl)

/-- A line of a mnemonic, one blank and operands. -/
theorem assembleText_operands {m : String} {o : List Char} (hm : Token m.toList) (ho : Trimmed o)
    (hsemi : ∀ c ∈ o, c ≠ ';') :
    assembleText (m.toList ++ ' ' :: o) = (parseFields m ((splitCommas o).map trimBoth)).bind assemble := by
  have htext : (m.toList ++ ' ' :: o).takeWhile (· != ';') = m.toList ++ ' ' :: o := by
    rw [List.takeWhile_eq_self_iff]
    intro c hc
    simp only [List.mem_append, List.mem_cons] at hc
    obtain hc | rfl | hc := hc
    · simpa using hm.ne_semicolon c hc
    · rfl
    · simpa using hsemi c hc
  have htrim : trimBoth (m.toList ++ ' ' :: o) = m.toList ++ ' ' :: o :=
    trimBoth_of_trimmed (trimmed_append (trimmed_of_token hm) [' '] ho)
  have hmnemonic : (m.toList ++ ' ' :: o).takeWhile (fun c => !(c == ' ' || c == '\t')) = m.toList := by
    rw [List.takeWhile_append_of_pos fun c hc => by simpa [blank] using hm.not_blank c hc]
    simp
  have hoperands : trimLeft (' ' :: o) = o := trimLeft_of_head (l := o) ho.head
  unfold assembleText
  simp only [htext, htrim, hmnemonic, List.drop_left, hoperands, String.ofList_toList]
  simp [ho.ne_nil]

/-- A line of a mnemonic and one operand. -/
theorem assembleText_operand {m : String} {a : List Char} (hm : Token m.toList) (ha : Token a) :
    assembleText (m.toList ++ ' ' :: a) = (parseFields m [a]).bind assemble := by
  rw [assembleText_operands hm (trimmed_of_token ha) ha.ne_semicolon,
    splitCommas_of_no_comma ha.ne_comma, List.map_singleton,
    trimBoth_of_trimmed (trimmed_of_token ha)]

/-- A line of a mnemonic and two operands, a blank after the comma. -/
theorem assembleText_two_operands {m : String} {a b : List Char} (hm : Token m.toList) (ha : Token a)
    (hb : Token b) :
    assembleText (m.toList ++ ' ' :: (a ++ ',' :: ' ' :: b)) = (parseFields m [a, b]).bind assemble := by
  have htrimmed : Trimmed (a ++ ',' :: ' ' :: b) :=
    trimmed_append (trimmed_of_token ha) [',', ' '] (trimmed_of_token hb)
  have hsemi : ∀ c ∈ a ++ ',' :: ' ' :: b, c ≠ ';' :=
    List.forall_mem_append.mpr ⟨ha.ne_semicolon, List.forall_mem_cons.mpr ⟨by decide,
      List.forall_mem_cons.mpr ⟨by decide, hb.ne_semicolon⟩⟩⟩
  have hcomma : ∀ c ∈ ' ' :: b, c ≠ ',' :=
    List.forall_mem_cons.mpr ⟨by decide, hb.ne_comma⟩
  have hblank : trimBoth (' ' :: b) = b := trimBoth_of_trimmed (trimmed_of_token hb)
  rw [assembleText_operands hm htrimmed hsemi, splitCommas_append_comma ha.ne_comma,
    splitCommas_of_no_comma hcomma, List.map_cons, List.map_singleton,
    trimBoth_of_trimmed (trimmed_of_token ha), hblank]

/-! ## Numbers in text -/

/-- The text is a non-empty run of the digits the disassembler prints. -/
structure Digits (l : List Char) : Prop where
  ne_nil : l ≠ []
  digit : ∀ c ∈ l, ∃ v < 16, c = hexDigit v

theorem token_of_digits {l : List Char} (h : Digits l) : Token l := by
  have hdigit : ∀ v < 16, blank (hexDigit v) = false ∧ hexDigit v ≠ ',' ∧ hexDigit v ≠ ';' := by decide
  refine token_iff.mpr ⟨h.ne_nil, fun c hc => ?_⟩
  obtain ⟨v, hv, rfl⟩ := h.digit c hc
  exact hdigit v hv

theorem digitValue_hexDigit_hex : ∀ v < 16, digitValue 16 (hexDigit v) = some v := by decide

theorem digitValue_hexDigit_decimal : ∀ v < 10, digitValue 10 (hexDigit v) = some v := by decide

theorem digitsValue_append (base : Nat) (l r : List Char) (acc : Nat) :
    digitsValue base acc (l ++ r) = (digitsValue base acc l).bind (digitsValue base · r) := by
  induction l generalizing acc with
  | nil => rfl
  | cons c l ih =>
    rw [List.cons_append, digitsValue, digitsValue]
    cases digitValue base c with
    | none => rfl
    | some v => exact ih _

/-- Digits are read in base ten: the second of them is no `x` and no `b`. -/
theorem parseNumber_of_digits {l : List Char} (h : Digits l) : parseNumber l = digitsValue 10 0 l := by
  have hdigit : ∀ v < 16, hexDigit v ≠ 'x' ∧ hexDigit v ≠ 'b' := by decide
  unfold parseNumber
  split
  next => exact absurd rfl h.ne_nil
  next =>
    obtain ⟨v, hv, hx⟩ := h.digit 'x' (by simp)
    exact absurd hx.symm (hdigit v hv).1
  next =>
    obtain ⟨v, hv, hb⟩ := h.digit 'b' (by simp)
    exact absurd hb.symm (hdigit v hv).2
  next => rfl

theorem parseNumber_hex {l : List Char} (h : l ≠ []) : parseNumber ('0' :: 'x' :: l) = digitsValue 16 0 l := by
  cases l with
  | nil => exact absurd rfl h
  | cons c l => rfl

theorem digits_decimalDigits (fuel n : Nat) : Digits (decimalDigits (fuel + 1) n) := by
  refine ⟨by simp [decimalDigits], ?_⟩
  generalize fuel + 1 = fuel
  induction fuel generalizing n with
  | zero => exact fun c hc => absurd hc List.not_mem_nil
  | succ fuel ih =>
    intro c hc
    rw [decimalDigits, List.mem_append, List.mem_singleton] at hc
    obtain hc | hc := hc
    · split at hc
      next => exact absurd hc List.not_mem_nil
      next => exact ih _ c hc
    · exact ⟨n % 10, by omega, hc⟩

theorem digitsValue_decimalDigits {fuel n : Nat} (h : n < 10 ^ fuel) :
    digitsValue 10 0 (decimalDigits fuel n) = some n := by
  induction fuel generalizing n with
  | zero =>
    obtain rfl : n = 0 := by simpa using h
    rfl
  | succ fuel ih =>
    have hlast (acc : Nat) : digitsValue 10 acc [hexDigit (n % 10)] = some (acc * 10 + n % 10) := by
      rw [digitsValue, digitValue_hexDigit_decimal _ (Nat.mod_lt _ (by decide))]
      rfl
    rw [decimalDigits, digitsValue_append]
    split
    next hn =>
      rw [digitsValue, Option.bind_some, hlast]
      congr 1
      omega
    next hn =>
      rw [ih (by omega), Option.bind_some, hlast]
      congr 1
      omega

theorem digits_decimal (n : Nat) : Digits (decimal n) := digits_decimalDigits 9 n

theorem parseNumber_decimal {n : Nat} (h : n < 2 ^ 32) : parseNumber (decimal n) = some n := by
  rw [parseNumber_of_digits (digits_decimal n), decimal, digitsValue_decimalDigits (by omega)]

theorem hexFixed_succ (k n : Nat) : hexFixed (k + 1) n = hexDigit (n / 16 ^ k % 16) :: hexFixed k n := by
  rw [hexFixed, List.range_succ, List.reverse_append]
  rfl

theorem length_hexFixed (k n : Nat) : (hexFixed k n).length = k := by simp [hexFixed]

theorem digitsValue_hexFixed (k n acc : Nat) :
    digitsValue 16 acc (hexFixed k n) = some (acc * 16 ^ k + n % 16 ^ k) := by
  induction k generalizing acc with
  | zero => simp [hexFixed, digitsValue, Nat.mod_one]
  | succ k ih =>
    rw [hexFixed_succ, digitsValue, digitValue_hexDigit_hex _ (Nat.mod_lt _ (by decide))]
    simp only [ih, Nat.mod_pow_succ]
    congr 1
    ring

theorem digit_of_mem_hexFixed (k n : Nat) : ∀ c ∈ hexFixed k n, ∃ v < 16, c = hexDigit v := by
  intro c hc
  obtain ⟨j, -, rfl⟩ := List.mem_map.mp hc
  exact ⟨_, Nat.mod_lt _ (by decide), rfl⟩

/-- Leading zeros have no value. -/
theorem digitsValue_dropWhile_zero (l : List Char) :
    digitsValue 16 0 (l.dropWhile (· == '0')) = digitsValue 16 0 l := by
  induction l with
  | nil => rfl
  | cons c l ih =>
    rw [List.dropWhile_cons]
    split
    next hc =>
      obtain rfl : c = '0' := eq_of_beq hc
      exact ih
    next => rfl

/-- The digits without leading zeros, or the digit 0 where none is left. -/
theorem hexMinimal_cases (n : Nat) :
    (hexFixed 8 n).dropWhile (· == '0') = [] ∧ hexMinimal n = ['0'] ∨
    (hexFixed 8 n).dropWhile (· == '0') ≠ [] ∧ hexMinimal n = (hexFixed 8 n).dropWhile (· == '0') := by
  unfold hexMinimal
  split
  next h => exact .inl ⟨h, rfl⟩
  next c rest h => exact .inr ⟨by simp [h], h.symm⟩

theorem digits_hexMinimal (n : Nat) : Digits (hexMinimal n) := by
  obtain ⟨-, h⟩ | ⟨hne, h⟩ := hexMinimal_cases n <;> rw [h]
  · exact ⟨by decide, fun c hc => ⟨0, by decide, List.mem_singleton.mp hc⟩⟩
  · exact ⟨hne, fun c hc => digit_of_mem_hexFixed 8 n c ((List.dropWhile_sublist _).subset hc)⟩

theorem digitsValue_hexMinimal (d : Operand) : digitsValue 16 0 (hexMinimal d.toNat) = some d.toNat := by
  have hd : d.toNat < 16 ^ 8 := d.isLt
  have hall : digitsValue 16 0 ((hexFixed 8 d.toNat).dropWhile (· == '0')) = some d.toNat := by
    rw [digitsValue_dropWhile_zero, digitsValue_hexFixed, Nat.zero_mul, Nat.zero_add, Nat.mod_eq_of_lt hd]
  obtain ⟨hnil, h⟩ | ⟨-, h⟩ := hexMinimal_cases d.toNat <;> rw [h, ← hall]
  rw [hnil]
  rfl

/-! ## The disassembler's text assembles back (R77) -/

theorem assembleText_number {m : String} {mk : Nat → AsmLine} (hm : Token m.toList)
    (hmk : ∀ l, parseFields m [l] = (parseNumber l).map mk) (n : Operand) :
    assembleText (m.toList ++ ' ' :: decimal n.toNat) = assemble (mk n.toNat) := by
  rw [assembleText_operand hm (token_of_digits (digits_decimal _)), hmk, parseNumber_decimal n.isLt]
  rfl

theorem parseFields_bits {a b : List Char} {len p : Nat} (ha : parseNumber a = some len)
    (hb : parseNumber b = some p) : parseFields "bits" [a, b] = some (.bits len p) := by
  simp [parseFields, ha, hb]

theorem assembleText_bits (lm1 : BitVec 5) (d : Operand) :
    assembleText ("bits".toList ++ ' ' ::
      (decimal (lm1.toNat + 1) ++ ',' :: ' ' :: '0' :: 'x' :: hexMinimal d.toNat)) =
      assemble (.bits (lm1.toNat + 1) d.toNat) := by
  have hhex : Digits (hexMinimal d.toNat) := digits_hexMinimal _
  have hp : Token ('0' :: 'x' :: hexMinimal d.toNat) :=
    token_append (a := ['0', 'x']) (token_iff.mpr (by simp [blank])) (token_of_digits hhex)
  rw [assembleText_two_operands (token_iff.mpr (by simp [blank])) (token_of_digits (digits_decimal _)) hp,
    parseFields_bits (parseNumber_decimal (by omega))
      ((parseNumber_hex hhex.ne_nil).trans (digitsValue_hexMinimal d)), Option.bind_some]

theorem assemble_omega_toNat (n : Operand) : assemble (.omega n.toNat) = some [encode (.omega n)] := by
  rw [assemble, asmOmega, if_pos n.isLt, BitVec.ofNat_toNat, BitVec.setWidth_eq]
  rfl

theorem assemble_fix7_toNat (v : Operand) : assemble (.fix7 v.toNat) = some [encode (.fix7 v)] := by
  rw [assemble, asmFix7, if_pos v.isLt, BitVec.ofNat_toNat, BitVec.setWidth_eq]
  rfl

theorem assemble_bits_toNat {lm1 : BitVec 5} {d : Operand} (h : (Instr.bits lm1 d).wellFormed = true) :
    assemble (.bits (lm1.toNat + 1) d.toNat) = some [encode (.bits lm1 d)] := by
  rw [assemble, asmBits, if_pos ⟨by omega, lm1.isLt, of_decide_eq_true h⟩, Nat.add_sub_cancel,
    BitVec.ofNat_toNat, BitVec.setWidth_eq, BitVec.ofNat_toNat, BitVec.setWidth_eq]
  rfl

theorem disassemble_omega {w : CmdWord} {n : Operand} (h : decode w = .legal (.omega n)) :
    disassemble w = "omega".toList ++ ' ' :: decimal n.toNat := by
  rw [disassemble, h]
  simp

theorem disassemble_fix7 {w : CmdWord} {v : Operand} (h : decode w = .legal (.fix7 v)) :
    disassemble w = "fix7".toList ++ ' ' :: decimal v.toNat := by
  rw [disassemble, h]
  simp

theorem disassemble_bits {w : CmdWord} {lm1 : BitVec 5} {d : Operand} (h : decode w = .legal (.bits lm1 d)) :
    disassemble w = "bits".toList ++ ' ' ::
      (decimal (lm1.toNat + 1) ++ ',' :: ' ' :: '0' :: 'x' :: hexMinimal d.toNat) := by
  rw [disassemble, h]
  simp

theorem assembleText_disassemble {w : CmdWord} {i : Instr} (h : decode w = .legal i)
    (hwf : i.wellFormed = true) : assembleText (disassemble w) = some [encode i] := by
  cases i with
  | nop | openC | commit | abort =>
    rw [disassemble, h]
    dsimp only
    decide
  | omega n =>
    rw [disassemble_omega h, assembleText_number (token_iff.mpr (by simp [blank])) fun _ => rfl]
    exact assemble_omega_toNat n
  | fix7 v =>
    rw [disassemble_fix7 h, assembleText_number (token_iff.mpr (by simp [blank])) fun _ => rfl]
    exact assemble_fix7_toNat v
  | bits lm1 d => rw [disassemble_bits h, assembleText_bits, assemble_bits_toNat hwf]

/-- Settles O39: what the disassembler prints is read back piece by piece. -/
theorem disassemblyAssemblesBack : Obligations.DisassemblyAssemblesBack := by
  refine ⟨fun w h => ?_, fun w h => ?_⟩
  · obtain ⟨i, hi⟩ := (legalWord_iff_exists_legal w).mp ((legalWord_iff_legal w).mpr h)
    obtain ⟨hwf, hw⟩ := encodeOfDecodeIsTheWord w i hi
    rw [assembleText_disassemble hi hwf, hw]
  · have hw : ¬LegalWord w := fun hw => Bool.false_ne_true (h.symm.trans ((legalWord_iff_legal w).mp hw))
    obtain ⟨why, hwhy⟩ := exists_illegal fun i hi => hw ((legalWord_iff_exists_legal w).mpr ⟨i, hi⟩)
    refine ⟨hexFixed 16 w.toNat, ?_, length_hexFixed _ _, ?_⟩
    · rw [disassemble, hwhy]
    · have hlt : w.toNat < 16 ^ 16 := w.isLt
      rw [digitsValue_hexFixed, Nat.zero_mul, Nat.zero_add, Nat.mod_eq_of_lt hlt]

end Sys2Proof.Proofs

namespace Sys2Proof.Proofs

open Sys2Proof Sys2Proof.Machine Sys2Proof.Claims

/-! # The integer codecs (40_integer_codecs.md)

## The reference decoder reads the code back (R104, R105) -/

theorem one_le_of_omega {n : Nat} {f : Bits} (h : Machine.omega n = some f) : 1 ≤ n := by
  by_contra hn
  obtain rfl : n = 0 := by omega
  cases omega_zero.symm.trans h

theorem slice_append_middle (p g t : Bits) :
    slice (p ++ g ++ t) p.length (p.length + g.length) = g := by
  rw [slice, List.append_assoc, List.drop_left, Nat.add_sub_cancel_left, List.take_left]

/-- One turn of `omega_decode` reads the group `g` that stands at its position. -/
theorem omegaDecodeLoop_group (p g t : Bits) (fuel : Nat) :
    omegaDecodeLoop (p ++ g ++ t) (fuel + 1) g.length p.length =
      if g[0]? = some true then .ok (val g, p.length + g.length)
      else omegaDecodeLoop (p ++ g ++ t) fuel (val (set0 g) + 1) (p.length + g.length) := by
  rw [omegaDecodeLoop, if_neg (by simp), slice_append_middle]

/-- A length group starts with 0, and the number it carries is read back. -/
theorem omegaDecodeLoop_lengthGroup {L : Nat} (h : 1 ≤ L) (p t : Bits) (fuel : Nat) :
    omegaDecodeLoop (p ++ clear0 (bin L) ++ t) (fuel + 1) (nbits L) p.length =
      omegaDecodeLoop (p ++ clear0 (bin L) ++ t) fuel (L + 1) (p.length + nbits L) := by
  have hgroup := omegaDecodeLoop_group p (clear0 (bin L)) t fuel
  have hcarried : set0 (clear0 (bin L)) = bin L := by rw [bin_eq_cons h]; rfl
  have hfirst : (clear0 (bin L))[0]? ≠ some true := by simp [bin_eq_cons h, clear0]
  rwa [if_neg hfirst, hcarried, val_bin, length_clear0, length_bin] at hgroup

/-- The code component starts with 1, and its value ends the loop. -/
theorem omegaDecodeLoop_bin {n : Nat} (h : 1 ≤ n) (p t : Bits) (fuel : Nat) :
    omegaDecodeLoop (p ++ bin n ++ t) (fuel + 1) (nbits n) p.length = .ok (n, p.length + nbits n) := by
  have hgroup := omegaDecodeLoop_group p (bin n) t fuel
  have hfirst : (bin n)[0]? = some true := by simp [bin_eq_cons h]
  rwa [if_pos hfirst, val_bin, length_bin] at hgroup

/-- The length groups before a component of `L + 1` bits tell the decoder to read `L + 1` bits next. Each of
its turns has taken at least one of their bits, so the fuel that is left is bounded below. -/
theorem omegaDecodeLoop_omegaPrefix (p : Bits) (L : Nat) : ∀ (t : Bits) (fuel : Nat),
    (omegaPrefix L).length ≤ fuel → ∃ left, fuel ≤ left + (omegaPrefix L).length ∧
      omegaDecodeLoop (p ++ omegaPrefix L ++ t) fuel 1 p.length =
        omegaDecodeLoop (p ++ omegaPrefix L ++ t) left (L + 1) (p ++ omegaPrefix L).length := by
  induction L using Nat.strong_induction_on with
  | _ L ih =>
    intro t fuel hfuel
    obtain rfl | hL := Nat.eq_zero_or_pos L
    · exact ⟨fuel, by omega, by simp⟩
    have hbits := one_le_nbits hL
    rw [omegaPrefix_pos hL, List.length_append, length_clear0, length_bin] at hfuel ⊢
    obtain ⟨left, hleft, hrun⟩ := ih _ (nbits_sub_one_lt hL) (clear0 (bin L) ++ t) fuel (by omega)
    obtain ⟨left, rfl⟩ : ∃ k, left = k + 1 := ⟨left - 1, by omega⟩
    refine ⟨left, by omega, ?_⟩
    have hturn := omegaDecodeLoop_lengthGroup hL (p ++ omegaPrefix (nbits L - 1)) t left
    rw [Nat.sub_add_cancel hbits] at hrun
    simp only [List.append_assoc, List.length_append, length_clear0, length_bin, Nat.add_assoc] at hrun hturn ⊢
    exact hrun.trans hturn

/-- `omega_decode` reads `omega(n)` back wherever it stands and whatever follows it. -/
theorem omegaDecode_omega {n : Nat} {f : Bits} (h : Machine.omega n = some f) (p t : Bits) :
    omegaDecode (p ++ f ++ t) p.length = .ok (n, p.length + f.length) := by
  have hn := one_le_of_omega h
  have hbits := one_le_nbits hn
  obtain rfl := Option.some.inj ((omega_pos hn).symm.trans h)
  obtain ⟨left, hleft, hrun⟩ := omegaDecodeLoop_omegaPrefix p (nbits n - 1) (bin n ++ t)
    ((p ++ (omegaPrefix (nbits n - 1) ++ bin n) ++ t).length + 1) (by simp; omega)
  obtain ⟨left, rfl⟩ : ∃ k, left = k + 1 := ⟨left - 1, by simp at hleft; omega⟩
  have hcode := omegaDecodeLoop_bin hn (p ++ omegaPrefix (nbits n - 1)) t left
  rw [Nat.sub_add_cancel hbits] at hrun
  simp only [omegaDecode, List.append_assoc, List.length_append, length_bin, Nat.add_assoc] at hrun hcode ⊢
  exact hrun.trans hcode

/-- A code that another one starts with is that code, and of the same number: both are read off its front. -/
theorem eq_of_omega_prefix {m n : Nat} {f g : Bits} (hm : Machine.omega m = some f) (hn : Machine.omega n = some g)
    (h : f <+: g) : m = n ∧ f = g := by
  obtain ⟨t, rfl⟩ := h
  have hread := omegaDecode_omega hn [] []
  rw [List.append_nil, List.nil_append, ← List.nil_append f, omegaDecode_omega hm [] t] at hread
  simp only [Except.ok.injEq, Prod.mk.injEq, List.nil_append, List.length_append] at hread
  obtain ⟨hmn, hlen⟩ := hread
  exact ⟨hmn, by rw [List.eq_nil_of_length_eq_zero (l := t) (by omega), List.append_nil]⟩

/-- Settles O32, by what the decoder reads off the front of a code. -/
theorem omegaIsInvertedAndPrefixFree : Obligations.OmegaIsInvertedAndPrefixFree := by
  refine ⟨fun n f t _ h => ?_, fun m n f g hm hn h => (eq_of_omega_prefix hm hn h).2,
    fun m n f hm hn => (eq_of_omega_prefix hm hn (List.prefix_refl f)).1⟩
  simpa using omegaDecode_omega h [] t

/-! ## The loop and its groups (R101, R102) -/

/-- From `L` and `out` the loop ends with the length groups of `L` before `out`. -/
theorem omegaLoop_omegaPrefix (L : Nat) : ∀ out : Bits, OmegaLoop L out (omegaPrefix L ++ out) := by
  induction L using Nat.strong_induction_on with
  | _ L ih =>
    intro out
    obtain rfl | hL := Nat.eq_zero_or_pos L
    · exact .stop out
    · rw [omegaPrefix_pos hL, List.append_assoc]
      refine .turn L out _ hL ?_
      rw [length_clear0, length_bin]
      exact ih _ (nbits_sub_one_lt hL) _

/-- Settles O29: the loop turns as the length groups are made, one by one. -/
theorem omegaFollowsTheLoop : Obligations.OmegaFollowsTheLoop :=
  ⟨omega_zero, fun n hn => ⟨_, omega_pos hn, length_bin n ▸ omegaLoop_omegaPrefix _ _⟩⟩

/-- `L_1, ..., L_k` of R102, from `L_1`: the numbers the length groups carry, the last group's first. -/
def groupLengths (L : Nat) : List Nat :=
  if h : 1 ≤ L then L :: groupLengths (nbits L - 1) else []
termination_by L
decreasing_by exact nbits_sub_one_lt h

@[simp] theorem groupLengths_zero : groupLengths 0 = [] := by simp [groupLengths]

theorem groupLengths_pos {L : Nat} (h : 1 ≤ L) : groupLengths L = L :: groupLengths (nbits L - 1) := by
  rw [groupLengths, dif_pos h]

theorem groupLengths_eq_nil_iff {L : Nat} : groupLengths L = [] ↔ L = 0 := by
  obtain rfl | hL := Nat.eq_zero_or_pos L
  · simp
  · simp [groupLengths_pos hL, Nat.ne_of_gt hL]

/-- What R101 puts before the code component is the groups of these lengths, the last one first. -/
theorem flatten_groupLengths (L : Nat) :
    ((groupLengths L).reverse.map fun L => clear0 (bin L)).flatten = omegaPrefix L := by
  induction L using groupLengths.induct with
  | case1 L hL ih => simpa [groupLengths_pos hL, omegaPrefix_pos hL] using ih
  | case2 L hL =>
    obtain rfl : L = 0 := by omega
    simp

theorem one_le_of_mem_groupLengths {L : Nat} : ∀ M ∈ groupLengths L, 1 ≤ M := by
  induction L using groupLengths.induct with
  | case1 L hL ih => simpa [groupLengths_pos hL] using ⟨hL, ih⟩
  | case2 L hL =>
    obtain rfl : L = 0 := by omega
    simp

theorem nbits_sub_one_eq_zero_iff {n : Nat} (h : 1 ≤ n) : nbits n - 1 = 0 ↔ n = 1 := by
  refine ⟨fun hn => ?_, by rintro rfl; rfl⟩
  have hlt := lt_two_pow_nbits n
  rw [show nbits n = 1 by have := one_le_nbits h; omega] at hlt
  omega

/-- Each length is one less than the bit length of the number before it. -/
theorem isChain_groupLengths (L : Nat) : ∀ m, L = nbits m - 1 →
    (m :: groupLengths L).IsChain fun a b => b = nbits a - 1 := by
  induction L using groupLengths.induct with
  | case1 L hL ih =>
    intro m hm
    rw [groupLengths_pos hL]
    exact .cons_cons hm (ih L rfl)
  | case2 L hL =>
    obtain rfl : L = 0 := by omega
    simp

/-- The lengths go on until the bit length less one is 0. -/
theorem getLast?_groupLengths (L : Nat) : ∀ m, L = nbits m - 1 →
    ∃ l, (m :: groupLengths L).getLast? = some l ∧ nbits l - 1 = 0 := by
  induction L using groupLengths.induct with
  | case1 L hL ih =>
    intro m hm
    rw [groupLengths_pos hL, List.getLast?_cons_cons]
    exact ih L rfl
  | case2 L hL =>
    obtain rfl : L = 0 := by omega
    exact fun m hm => ⟨m, by simp, hm.symm⟩

/-- Entry `i` of the lengths is made from entry `i` of the numbers `n, L_1, ..., L_k`. -/
theorem getElem?_groupLengths {n i L : Nat} (hn : 1 ≤ n) (h : (groupLengths (nbits n - 1))[i]? = some L) :
    ∃ m, (n :: groupLengths (nbits n - 1))[i]? = some m ∧ L = nbits m - 1 ∧ (bin m).length = L + 1 := by
  obtain ⟨hi, rfl⟩ := List.getElem?_eq_some_iff.mp h
  have hi' : i < (n :: groupLengths (nbits n - 1)).length := Nat.lt_succ_of_lt hi
  have hL := List.isChain_iff_getElem.mp (isChain_groupLengths _ n rfl) i (Nat.succ_lt_succ hi)
  have hm : 1 ≤ (n :: groupLengths (nbits n - 1))[i] := by
    obtain h | h := List.mem_cons.mp (List.getElem_mem hi')
    · rwa [h]
    · exact one_le_of_mem_groupLengths _ h
  have hbits := one_le_nbits hm
  rw [List.getElem_cons_succ] at hL
  exact ⟨_, List.getElem?_eq_getElem hi', hL, by rw [length_bin]; omega⟩

/-- The group that is emitted first carries 1, so it has one bit. -/
theorem getLast?_groupLengths_eq_one {n : Nat} (h : groupLengths (nbits n - 1) ≠ []) :
    (groupLengths (nbits n - 1)).getLast? = some 1 := by
  obtain ⟨l, hl, hz⟩ := getLast?_groupLengths _ n rfl
  rw [List.getLast?_cons_of_ne_nil h] at hl
  have hpos := one_le_of_mem_groupLengths l (List.mem_of_getLast? hl)
  rwa [(nbits_sub_one_eq_zero_iff hpos).mp hz] at hl

/-- Settles O30: the lengths of the groups, from `L_1 = nbits(n) - 1` down to 1. -/
theorem omegaGroupStructure : Obligations.OmegaGroupStructure := by
  intro n hn
  have hnil : groupLengths (nbits n - 1) = [] ↔ n = 1 :=
    groupLengths_eq_nil_iff.trans (nbits_sub_one_eq_zero_iff hn)
  refine ⟨groupLengths (nbits n - 1), ?_, fun i L h => getElem?_groupLengths hn h, fun L hL => ?_,
    getLast?_groupLengths _ n rfl, by rw [bin_eq_cons hn]; rfl, hnil, fun h => ?_, fun h => ?_⟩
  · rw [flatten_groupLengths, omega_pos hn]
  · have hpos := one_le_of_mem_groupLengths L hL
    exact ⟨hpos, by rw [bin_eq_cons hpos]; rfl, length_clear0 _⟩
  · rw [hnil.mp h]
    decide
  · exact ⟨getLast?_groupLengths_eq_one h, by decide⟩

/-! ## The length table and the known values (R103, R109) -/

theorem length_omega {n : Nat} {f : Bits} (h : Machine.omega n = some f) :
    f.length = nbits n + (omegaPrefix (nbits n - 1)).length := by
  obtain rfl := Option.some.inj ((omega_pos (one_le_of_omega h)).symm.trans h)
  simp [Nat.add_comm]

/-- R103's table against the length groups of R101, for every bit length up to 32. -/
theorem omegaPrefix_table : ∀ b < 33, 1 ≤ b → omegaPrefix (b - 1) = prefixBits b ∧
    b + (prefixBits b).length = omegaLength b ∧ omegaLength b ≤ 43 ∧ (omegaLength b = 43 ↔ b = 32) := by
  decide

theorem nbits_eq_iff_of_lt_two_pow {n w : Nat} (h1 : 1 ≤ n) (h : n < 2 ^ (w + 1)) :
    nbits n = w + 1 ↔ 2 ^ w ≤ n := by
  refine ⟨fun hn => ?_, fun hle => ?_⟩
  · simpa [hn] using two_pow_le_of_pos h1
  · have hup := nbits_le_of_lt_two_pow h1 h
    have hlow := (Nat.pow_lt_pow_iff_right (by decide)).mp (hle.trans_lt (lt_two_pow_nbits n))
    omega

/-- Settles O31: the recursion of `omegaPrefix` gives `P`, and the table is read off bit length by bit length. -/
theorem omegaLengthTable : Obligations.OmegaLengthTable := by
  refine ⟨⟨fun L => (omegaPrefix L).length, rfl, fun L hL => ?_, fun n f _ h => length_omega h⟩,
    fun n f hn hlt h => ?_⟩
  · simp [omegaPrefix_pos hL, Nat.add_comm]
  · have hup := nbits_le_of_lt_two_pow hn hlt
    obtain ⟨hprefix, hlength, hle, hmax⟩ := omegaPrefix_table (nbits n) (by omega) (one_le_nbits hn)
    have hf := length_omega h
    rw [hprefix, hlength] at hf
    rw [hf, ← hprefix, ← nbits_eq_iff_of_lt_two_pow hn hlt]
    exact ⟨rfl, Option.some.inj (h.symm.trans (omega_pos hn)), two_pow_le_of_pos hn, lt_two_pow_nbits n, hle, hmax⟩

/-- Settles O33, by running the loop. -/
theorem omegaKnownValues : Obligations.OmegaKnownValues := by
  unfold Obligations.OmegaKnownValues
  decide

/-! ## The 7-bit field (R106) -/

/-- Settles O34, by the bits and the value of `fixed`. -/
theorem fix7FieldBits : Obligations.Fix7FieldBits :=
  ⟨fun v hv => ⟨_, fix7_of_lt hv, length_fixed v 7, val_fixed (w := 7) hv, fun _ => getElem?_fixed v⟩,
    fun _ => fix7_of_ge⟩

/-! ## OMEGA and FIX7 (R107, R108) -/

/-- The word with the fields of a well-formed instruction, given as numbers, decodes to it. -/
theorem decode_wordOf {i : Instr} (h : i.wellFormed = true) :
    decode (wordOf (opcode i).toNat (lm1Of i).toNat (dOf i).toNat) = .legal i := by
  have hword := enc_eq_wordOf (opcode i) (lm1Of i).isLt (dOf i).isLt
  rw [BitVec.ofNat_toNat, BitVec.setWidth_eq, BitVec.ofNat_toNat, BitVec.setWidth_eq, ← encode_eq_enc] at hword
  rw [← hword, decodeOfEncodeIsTheInstruction i h]

theorem exec_append_of_error {i : Instr} {s : State} (hi : isAppend i = true) (h : s.ctl = .error) :
    exec i s = .next s := by
  obtain ⟨c, hc⟩ := exec_of_isAppend hi
  rw [hc, appendCommand_of_error h]

theorem exec_append_of_idle_or_done {i : Instr} {s : State} (hi : isAppend i = true)
    (h : s.ctl = .idle ∨ s.ctl = .done) : exec i s = .next (errorState .sequence s) := by
  obtain ⟨c, hc⟩ := exec_of_isAppend hi
  rw [hc, appendCommand_of_sequence (by rintro he; simp [he] at h) (by rintro ho; simp [ho] at h)]
  rfl

theorem exec_fragment_of_overflow {i : Instr} {f : Bits} {s : State} (hf : fragment i = some f)
    (ho : s.ctl = .opened) (h : s.cfg.bufCap < s.blen + f.length) :
    exec i s = .next (errorState .overflow s) := by
  rw [exec_of_fragment hf ho, bufAppend_of_overflow h]
  rfl

/-- A written bit reads as the fragment's. -/
theorem getElem?_writeBits_inside {buf : Bits} {pos : Nat} (f : Bits) (h : pos ≤ buf.length) {k : Nat}
    (hlow : pos ≤ k) (hup : k < pos + f.length) : (writeBits buf pos f)[k]? = f[k - pos]? := by
  have htake : (buf.take pos).length = pos := List.length_take_of_le h
  rw [writeBits, List.append_assoc, List.getElem?_append_right (by omega), htake,
    List.getElem?_append_left (by omega)]

/-- `BufAppend` of a fragment that fits is the append of R51, bit by bit. -/
theorem appended_bufAppend {f : Bits} {s : State} (h : s.blen + f.length ≤ s.cfg.bufCap) :
    Appended s (bufAppend f s) f := by
  rw [bufAppend_of_fits h]
  refine ⟨rfl, rfl, rfl, rfl, rfl, rfl, rfl, rfl, fun hw k => ?_⟩
  split
  next hk => exact getElem?_writeBits_inside f hw hk.1 hk.2
  next hk => exact getElem?_writeBits_outside f hw (by omega)

theorem exec_fragment_of_fits {i : Instr} {f : Bits} {s : State} (hf : fragment i = some f)
    (ho : s.ctl = .opened) (h : s.blen + f.length ≤ s.cfg.bufCap) :
    ∃ t, exec i s = .next t ∧ Appended s t f :=
  ⟨_, exec_of_fragment hf ho, appended_bufAppend h⟩

/-- Settles O24: the rules of the append commands, at the fragment `omega(n)`. -/
theorem omegaAppendsTheCode : Obligations.OmegaAppendsTheCode := by
  refine ⟨fun n => decode_wordOf (i := .omega n) rfl, fun n s => ⟨exec_append_of_error rfl,
    exec_append_of_idle_or_done rfl, fun ho hn => ?_, fun ho hn => ?_⟩, by decide, by decide, by decide⟩
  · subst hn
    exact congrArg Host.Outcome.next (appendCommand_of_none ho)
  · have hpos : 1 ≤ n.toNat := Nat.pos_of_ne_zero fun h => hn (BitVec.eq_of_toNat_eq h)
    have hf : fragment (.omega n) = some _ := omega_pos hpos
    exact ⟨_, hf, exec_fragment_of_fits hf ho, exec_fragment_of_overflow hf ho⟩

theorem fragment_fix7 {v : Operand} (h : v.toNat < 128) : fragment (.fix7 v) = some (fixed v.toNat 7) :=
  fix7_of_lt h

/-- Settles O25: the rules of the append commands, at the fragment `fix7(v)`. -/
theorem fix7AppendsTheSymbol : Obligations.Fix7AppendsTheSymbol := by
  refine ⟨fun v => decode_wordOf (i := .fix7 v) rfl, fun v s => ⟨exec_append_of_error rfl,
    exec_append_of_idle_or_done rfl, fun ho hv => ?_, fun ho hv hfits => ?_, fun ho hv hover => ?_⟩,
    by decide, by decide, by decide⟩
  · rw [exec, execFix7, fix7Operand, fix7_of_ge hv, appendCommand_of_none ho]
    rfl
  · obtain ⟨t, hexec, ht⟩ := exec_fragment_of_fits (fragment_fix7 hv) ho (by simpa using hfits)
    exact ⟨t, _, hexec, ht, length_fixed _ _, val_fixed (w := 7) hv⟩
  · exact exec_fragment_of_overflow (fragment_fix7 hv) ho (by simpa using hover)

end Sys2Proof.Proofs

namespace Sys2Proof.Proofs

open Sys2Proof Sys2Proof.Machine Sys2Proof.Claims

/-! # The bit packer (41_bit_packer.md)

## BITS (R130) -/

theorem wordOf_toNat (op : BitVec 4) (lm1 : BitVec 5) (d : Operand) :
    wordOf op.toNat lm1.toNat d.toNat = enc op lm1 d := by
  have h := enc_eq_wordOf op lm1.isLt d.isLt
  rwa [BitVec.ofNat_toNat, BitVec.setWidth_eq, BitVec.ofNat_toNat, BitVec.setWidth_eq, eq_comm] at h

/-- A payload of more than `len` bits makes an illegal word (R74). -/
theorem exists_illegal_of_long_payload {lm1 : BitVec 5} {d : Operand} (h : 2 ^ (lm1.toNat + 1) ≤ d.toNat) :
    ∃ why, decode (wordOf 0x4 lm1.toNat d.toNat) = .illegal why := by
  refine exists_illegal fun i hi => ?_
  rw [show (0x4 : Nat) = (0x4#4).toNat from rfl, wordOf_toNat] at hi
  obtain ⟨hop, -, hl, hd, hwf⟩ := decode_eq_legal_iff.mp hi
  rw [Laws.opField_enc] at hop
  rw [Laws.lm1Field_enc] at hl
  rw [Laws.dField_enc] at hd
  have hlt := dOf_lt_of_bits hop.symm hwf
  rw [← hl, ← hd] at hlt
  exact hlt.not_ge h

/-- The fragment of BITS is `D[len-1]` down to `D[0]`: the bits above are not in it. -/
theorem getElem?_fixed_toNat_mod (d : Operand) {len j : Nat} (hj : j < len) :
    (fixed (d.toNat % 2 ^ len) len)[j]? = some (d.getLsbD (len - 1 - j)) := by
  rw [getElem?_fixed _ hj, Nat.testBit_mod_two_pow, decide_eq_true (by omega), Bool.true_and]
  rfl

/-- Settles O26: the rules of the append commands, at the fragment of BITS. -/
theorem bitsAppendsThePayload : Obligations.BitsAppendsThePayload := by
  refine ⟨fun lm1 d hd => decode_wordOf (i := .bits lm1 d) (decide_eq_true hd),
    fun lm1 d => exists_illegal_of_long_payload, fun lm1 d s => ⟨exec_append_of_error rfl,
      exec_append_of_idle_or_done rfl, fun ho hfits => ?_, fun ho hover => ?_⟩⟩
  · obtain ⟨t, hexec, ht⟩ := exec_fragment_of_fits (i := .bits lm1 d) rfl ho (by simpa using hfits)
    exact ⟨t, _, hexec, ht, length_fixed _ _, fun j => getElem?_fixed_toNat_mod d⟩
  · exact exec_fragment_of_overflow (i := .bits lm1 d) rfl ho (by simpa using hover)

/-! ## Appends one after the other (R131, R132) -/

theorem execAll_cons_of_next {i : Instr} {s t : State} (is : List Instr) (h : exec i s = .next t) :
    execAll (i :: is) s = execAll is t := by
  rw [execAll, h]

theorem writeBits_nil (buf : Bits) (pos : Nat) : writeBits buf pos [] = buf := by
  simp [writeBits]

/-- Writing a second string where the first one ends is writing both at once. -/
theorem writeBits_writeBits (s : State) (f g : Bits) :
    writeBits (writeBits s.buf s.blen f) (s.blen + f.length) g = writeBits s.buf s.blen (f ++ g) := by
  have hrest : (writeBits s.buf s.blen f).drop (s.blen + f.length + g.length) =
      s.buf.drop (s.blen + (f ++ g).length) := by
    rw [writeBits, List.drop_append, List.drop_eq_nil_of_le (by simp; omega), List.nil_append, List.drop_drop]
    obtain h | h := Nat.le_total s.blen s.buf.length
    · congr 1
      simp
      omega
    · rw [List.drop_eq_nil_of_le (by omega), List.drop_eq_nil_of_le (by simp; omega)]
  rw [writeBits, Laws.take_writeBits_stream, hrest, writeBits, State.stream, ← List.append_assoc]

/-- Two appends that fit are one, but for `LASTLEN` (R131). -/
theorem bufAppend_bufAppend {f g : Bits} {s : State} (h : s.blen + (f ++ g).length ≤ s.cfg.bufCap) :
    bufAppend g (bufAppend f s) = { bufAppend (f ++ g) s with lastlen := g.length } := by
  have hlen : s.blen + (f ++ g).length = s.blen + f.length + g.length := by
    rw [List.length_append, Nat.add_assoc]
  rw [bufAppend_of_fits h, bufAppend_of_fits (f := f) (by omega), bufAppend_of_fits (by dsimp only; omega)]
  dsimp only
  rw [writeBits_writeBits, hlen]

/-- In OPEN, commands whose fragments fit in total append what one append of all of them would; `LASTLEN` is
the length of the last. -/
theorem execAll_fragments_of_fits {is : List Instr} {fs : List Bits} {s : State}
    (hfs : is.map fragment = fs.map some) (ho : s.ctl = .opened)
    (h : s.blen + fs.flatten.length ≤ s.cfg.bufCap) :
    execAll is s = .next { bufAppend fs.flatten s with
      lastlen := (fs.map List.length).getLastD s.lastlen } := by
  induction fs generalizing is s with
  | nil =>
    obtain rfl := List.map_eq_nil_iff.mp hfs
    rw [bufAppend_of_fits h, List.flatten_nil, writeBits_nil]
    rfl
  | cons f fs ih =>
    obtain ⟨i, is, rfl, hi, his⟩ := List.map_eq_cons_iff.mp hfs
    have hlen : (f ++ fs.flatten).length = f.length + fs.flatten.length := List.length_append
    rw [List.flatten_cons] at h ⊢
    have hfirst := bufAppend_of_fits (f := f) (s := s) (by omega)
    have hrest := ih (s := bufAppend f s) his (by rw [hfirst]; exact ho)
      (by rw [hfirst]; dsimp only; omega)
    have hlast : (bufAppend f s).lastlen = f.length := by rw [hfirst]
    rw [execAll_cons_of_next is (exec_of_fragment hi ho), hrest, bufAppend_bufAppend h, hlast,
      List.map_cons, List.getLastD_cons]

theorem execAll_fragments_of_error {is : List Instr} {fs : List Bits} {s : State}
    (hfs : is.map fragment = fs.map some) (he : s.ctl = .error) : execAll is s = .next s := by
  induction fs generalizing is with
  | nil =>
    obtain rfl := List.map_eq_nil_iff.mp hfs
    rfl
  | cons f fs ih =>
    obtain ⟨i, is, rfl, hi, his⟩ := List.map_eq_cons_iff.mp hfs
    rw [execAll_cons_of_next is (exec_append_of_error (isAppend_of_fragment hi) he), ih his]

/-- Where the fragments do not fit in total, one of them overflows and the later commands are ignored. The
fragments before it stay in `BUF` as stale bits, and `LASTLEN` is theirs. -/
theorem execAll_fragments_of_overflow {is : List Instr} {fs : List Bits} {s : State}
    (hfs : is.map fragment = fs.map some) (hne : fs ≠ []) (ho : s.ctl = .opened)
    (h : s.cfg.bufCap < s.blen + fs.flatten.length) :
    ∃ buf lastlen, execAll is s = .next { errorState .overflow s with buf := buf, lastlen := lastlen } := by
  induction fs generalizing is s with
  | nil => exact absurd rfl hne
  | cons f fs ih =>
    obtain ⟨i, is, rfl, hi, his⟩ := List.map_eq_cons_iff.mp hfs
    rw [List.flatten_cons, List.length_append] at h
    by_cases hf : s.blen + f.length ≤ s.cfg.bufCap
    · have hrest : fs ≠ [] := by
        rintro rfl
        exact hf.not_gt h
      have hfirst := bufAppend_of_fits hf
      rw [execAll_cons_of_next is (exec_of_fragment hi ho), hfirst]
      exact ih his hrest ho (by dsimp only; omega)
    · rw [execAll_cons_of_next is (exec_fragment_of_overflow hi ho (Nat.not_le.mp hf)),
        execAll_fragments_of_error his rfl]
      exact ⟨s.buf, s.lastlen, rfl⟩

theorem exec_openC (s : State) : exec .openC s = .next (Laws.openState s) := rfl

/-- Settles O35: the appends after OPEN are one append to the empty stream, and COMMIT delivers the stream. -/
theorem streamIsTheConcatenation : Obligations.StreamIsTheConcatenation := by
  intro s is fs hfs hcap
  have hfits : (Laws.openState s).blen + fs.flatten.length ≤ (Laws.openState s).cfg.bufCap :=
    (Nat.zero_add _).trans_le hcap
  have hrun := execAll_fragments_of_fits hfs rfl hfits
  have hstream := stream_bufAppend_of_fits hfits
  rw [bufAppend_of_fits hfits] at hrun hstream
  refine ⟨_, (execAll_cons_of_next is (exec_openC s)).trans hrun, rfl, rfl, hstream,
    (Nat.zero_add _).trans List.length_flatten, fun hne => ?_⟩
  have hblen : (Laws.openState s).blen + fs.flatten.length ≠ 0 :=
    Nat.ne_of_gt (Nat.add_pos_right _ (List.length_pos_of_ne_nil hne))
  exact ⟨_, exec_commit_of_opened rfl hblen, congrArg (fun f => s.sinkLog ++ [f]) hstream⟩

/-! ## Chunks (R131) -/

theorem fragment_bitsOf {c : Bits} (h : 1 ≤ c.length ∧ c.length ≤ 32) : fragment (bitsOf c) = some c := by
  have hlen : (BitVec.ofNat 5 (c.length - 1)).toNat + 1 = c.length := by
    rw [BitVec.toNat_ofNat]
    omega
  have hval : val c < 2 ^ 32 := (val_lt c).trans_le (Nat.pow_le_pow_right two_pos h.2)
  rw [bitsOf, fragment, hlen, BitVec.toNat_ofNat, Nat.mod_eq_of_lt hval, Nat.mod_eq_of_lt (val_lt c), fixed_val]

/-- Settles O36: a chunk is the fragment of its BITS command, so this is the rule of appends one after the
other. -/
theorem chunkedAppendIsOneAppend : Obligations.ChunkedAppendIsOneAppend := by
  intro s cs last ho _ hcs
  have hfs : ((cs ++ [last]).map bitsOf).map fragment = (cs ++ [last]).map some := by
    rw [List.map_map]
    exact List.map_congr_left fun c hc => fragment_bitsOf (hcs c hc)
  by_cases h : s.blen + (cs ++ [last]).flatten.length ≤ s.cfg.bufCap
  · have hlast : ((cs ++ [last]).map List.length).getLastD s.lastlen = last.length := by simp
    have hrun := execAll_fragments_of_fits hfs ho h
    have hstream := stream_bufAppend_of_fits h
    rw [hlast] at hrun
    rw [bufAppend_of_fits h] at hrun hstream ⊢
    exact ⟨_, hrun, rfl, fun _ => ⟨ho, hstream, rfl, rfl, rfl⟩, fun hover => absurd h hover.not_ge⟩
  · have hover := Nat.not_le.mp h
    obtain ⟨buf, lastlen, hrun⟩ := execAll_fragments_of_overflow hfs (by simp) ho hover
    exact ⟨_, hrun, rfl, fun hfits => absurd hfits h, fun _ => ⟨rfl, rfl, rfl, bufAppend_of_overflow hover⟩⟩

end Sys2Proof.Proofs

namespace Sys2Proof.Proofs

open Sys2Proof Sys2Proof.Machine Sys2Proof.Claims

/-! # Construction control (42_control.md)

## The order of the errors of a command that needs OPEN (60_exceptions.md R182) -/

/-- OMEGA, FIX7, BITS and COMMIT are the ERROR gate over the state check. -/
theorem exec_of_needsOpen {i : Instr} (h : needsOpen i = true) :
    ∃ act, ∀ s, exec i s = .next (unlessError (requireOpen act) s) := by
  cases i with
  | omega | fix7 | bits | commit => exact ⟨_, fun _ => rfl⟩
  | nop | openC | abort => cases h

theorem exec_needsOpen_of_error {i : Instr} {s : State} (hi : needsOpen i = true) (h : s.ctl = .error) :
    exec i s = .next s := by
  obtain ⟨act, hact⟩ := exec_of_needsOpen hi
  rw [hact, unlessError_of_error h]

theorem exec_needsOpen_of_idle_or_done {i : Instr} {s : State} (hi : needsOpen i = true)
    (h : s.ctl = .idle ∨ s.ctl = .done) : exec i s = .next (errorState .sequence s) := by
  obtain ⟨act, hact⟩ := exec_of_needsOpen hi
  rw [hact, unlessError_of_not_error (by rintro he; simp [he] at h),
    requireOpen_of_not_opened (by rintro ho; simp [ho] at h)]
  rfl

theorem exec_commit_of_empty {s : State} (ho : s.ctl = .opened) (hb : s.blen = 0) :
    exec .commit s = .next (errorState .invalidInput s) := by
  rw [exec, execCommit, unlessError_of_not_error (by simp [ho]), requireOpen_of_opened ho, commitOpened,
    if_pos hb]
  rfl

theorem operandError_omega (s : State) (n : Operand) :
    operandError s (.omega n) = if n = 0#32 then some .invalidArgument else none := rfl

theorem operandError_fix7 (s : State) (v : Operand) :
    operandError s (.fix7 v) = if 128 ≤ v.toNat then some .unsupportedSymbol else none := rfl

theorem operandError_commit (s : State) :
    operandError s .commit = if s.blen = 0 then some .invalidInput else none := rfl

/-- The three operand errors. -/
theorem operandError_cases {i : Instr} {s : State} {c : ErrCode} (h : operandError s i = some c) :
    (i = .omega 0#32 ∧ c = .invalidArgument) ∨
      (∃ v, i = .fix7 v ∧ 128 ≤ v.toNat ∧ c = .unsupportedSymbol) ∨
      (i = .commit ∧ s.blen = 0 ∧ c = .invalidInput) := by
  cases i with
  | omega n =>
    obtain ⟨hn, hc⟩ := Option.ite_none_right_eq_some.mp h
    exact .inl ⟨congrArg _ hn, (Option.some.inj hc).symm⟩
  | fix7 v =>
    obtain ⟨hv, hc⟩ := Option.ite_none_right_eq_some.mp h
    exact .inr (.inl ⟨v, rfl, hv, (Option.some.inj hc).symm⟩)
  | commit =>
    obtain ⟨hb, hc⟩ := Option.ite_none_right_eq_some.mp h
    exact .inr (.inr ⟨rfl, hb, (Option.some.inj hc).symm⟩)
  | nop | openC | bits | abort => cases h

/-- In OPEN the operand error of a command, or COMMIT's empty buffer, is what it raises. -/
theorem exec_of_operandError {i : Instr} {s : State} {c : ErrCode} (ho : s.ctl = .opened)
    (h : operandError s i = some c) : exec i s = .next (errorState c s) := by
  obtain ⟨rfl, rfl⟩ | ⟨v, rfl, hv, rfl⟩ | ⟨rfl, hb, rfl⟩ := operandError_cases h
  · exact congrArg Host.Outcome.next (appendCommand_of_none ho)
  · rw [exec, execFix7, fix7Operand, fix7_of_ge hv, appendCommand_of_none ho]
    rfl
  · exact exec_commit_of_empty ho hb

/-- An append command without an operand error has a fragment (40_integer_codecs.md R107, R108). -/
theorem exists_fragment {i : Instr} {s : State} (hi : isAppend i = true) (h : operandError s i = none) :
    ∃ f, fragment i = some f := by
  cases i with
  | omega n =>
    have hn : n ≠ 0#32 := by simpa [operandError_omega] using h
    exact ⟨_, omega_pos (Nat.pos_of_ne_zero fun h0 => hn (BitVec.eq_of_toNat_eq h0))⟩
  | fix7 v =>
    have hv : v.toNat < 128 := by simpa [operandError_fix7] using h
    exact ⟨_, fragment_fix7 hv⟩
  | bits => exact ⟨_, rfl⟩
  | nop | openC | commit | abort => cases hi

/-! ## NOP (R140) -/

theorem not_legalWord_of_nop_operand {w : CmdWord} (hop : w.toNat / 2 ^ 60 = 0x0) (h : w.toNat % 2 ^ 60 ≠ 0) :
    ¬LegalWord w := by
  rintro (⟨-, hrest⟩ | ⟨hop', -⟩ | ⟨hop', -, -⟩)
  · exact h hrest
  · rw [hop] at hop'
    simp at hop'
  · cases hop.symm.trans hop'

/-- Settles O19: NOP's word has no other bit set, by the predicate of R74. -/
theorem nopChangesNothing : Obligations.NopChangesNothing := by
  refine ⟨decode_wordOf (i := .nop) rfl, fun _ => rfl, fun w s hop hrest => ?_⟩
  obtain ⟨-, -, hillegal⟩ := legalExactlyByPredicate w
  exact (hillegal (not_legalWord_of_nop_operand hop hrest) s).1

/-! ## OPEN (R141) -/

/-- STATUS reads 1 in OPEN with no error (R29). -/
theorem readReg_status_eq_one {s : State} (hc : s.ctl = .opened) (he : s.err = .noError) :
    readReg s 0x0#4 = 0x00000001#32 := by
  rw [readReg_status, statusWord, hc, he]
  decide

/-- Settles O20: OPEN writes four fields, whatever they hold. -/
theorem openStartsAConstruction : Obligations.OpenStartsAConstruction :=
  ⟨decode_wordOf (i := .openC) rfl, fun s =>
    ⟨_, exec_openC s, rfl, rfl, rfl, rfl, readReg_status_eq_one rfl rfl, rfl, rfl, rfl, rfl, rfl⟩⟩

/-! ## ABORT (R143) -/

/-- The low bits of STATUS are the code of STATE (R29). -/
theorem readReg_status_ctl (s : State) : (readReg s 0x0#4).extractLsb' 0 2 = ctlCode s.ctl :=
  (statusWord_fields (ctlCode s.ctl) (errCode s.err)).1

/-- ABORT writes what IDLE already holds (R27). -/
theorem exec_abort_of_idle {s : State} (hs : SpecInv s) (hc : s.ctl = .idle) : exec .abort s = .next s := by
  obtain ⟨hb, hl⟩ := hs.idle hc
  cases s
  cases hc
  cases hb
  cases hl
  rfl

/-- Settles O21: ABORT writes STATE, BLEN and LASTLEN and nothing else. -/
theorem abortDiscardsAndKeepsErr : Obligations.AbortDiscardsAndKeepsErr :=
  ⟨decode_wordOf (i := .abort) rfl, fun _ =>
    ⟨_, rfl, rfl, rfl, rfl, rfl, readReg_status_ctl _, rfl, rfl, rfl, rfl, rfl⟩,
    fun _ => exec_abort_of_idle⟩

/-! ## COMMIT (R142) -/

/-- Settles O22: the delivery, and the two errors in R182's order. -/
theorem commitDeliversTheStream : Obligations.CommitDeliversTheStream := by
  refine ⟨decode_wordOf (i := .commit) rfl, fun s => ⟨fun ho hb => ?_, exec_commit_of_empty,
    exec_needsOpen_of_idle_or_done rfl, exec_needsOpen_of_error rfl⟩⟩
  exact ⟨_, exec_commit_of_opened ho (Nat.ne_of_gt hb), rfl, rfl, readReg_status_ctl _, rfl, rfl, rfl, rfl,
    rfl, rfl, rfl⟩

/-! ## The frame of the four commands (R140 to R143) -/

/-- Settles O28, command by command; of COMMIT's outcomes the delivery alone writes the Sink log. -/
theorem controlFrame : Obligations.ControlFrame := by
  intro i s t hi h
  cases i with
  | omega | fix7 | bits => cases hi
  | nop =>
    cases h
    exact ⟨rfl, rfl, rfl, rfl, fun hne => absurd rfl hne, fun _ => rfl, fun _ => rfl, fun _ => ⟨rfl, rfl⟩⟩
  | openC =>
    cases h
    exact ⟨rfl, rfl, rfl, rfl, fun hne => absurd rfl hne, by simp, by simp, by simp⟩
  | abort =>
    cases h
    exact ⟨rfl, rfl, rfl, rfl, fun hne => absurd rfl hne, fun _ => rfl, by simp, by simp⟩
  | commit =>
    cases wordEffect_exec h with
    | unchanged | raised =>
      exact ⟨rfl, rfl, rfl, rfl, fun hne => absurd rfl hne, by simp, fun _ => rfl, by simp⟩
    | delivered _ ho =>
      exact ⟨rfl, rfl, rfl, rfl, fun _ => ⟨rfl, ho, rfl⟩, by simp, fun _ => rfl, by simp⟩
    | started hd | abandoned hd => cases hd
    | appended _ _ hd hi' =>
      cases hd
      cases hi'

/-! ## The state machine (R144) -/

/-- `t` is as the cell of R144's table for the word says: its STATE, and the error state of the code raised
or, with none raised, ERR. -/
def FollowsCell (d : Decoded) (s t : State) : Prop :=
  t.ctl = (cell (rowOf s d) s.ctl).1 ∧
    (∀ c, (cell (rowOf s d) s.ctl).2 = some c → t = errorState c s) ∧
    ((cell (rowOf s d) s.ctl).2 = none → t.err = if d = .legal .openC then .noError else s.err)

theorem followsCell_of_raised {d : Decoded} {s : State} {c : ErrCode}
    (h : cell (rowOf s d) s.ctl = (.error, some c)) : FollowsCell d s (errorState c s) := by
  simp [FollowsCell, h, errorState]

theorem followsCell_of_quiet {d : Decoded} {s t : State} (h : cell (rowOf s d) s.ctl = (t.ctl, none))
    (herr : t.err = if d = .legal .openC then .noError else s.err) : FollowsCell d s t := by
  simp [FollowsCell, h, herr]

/-- The rows of the commands that need OPEN. -/
theorem rowOf_of_needsOpen {i : Instr} (s : State) (h : needsOpen i = true) :
    rowOf s (.legal i) ∈ [Row.appendOk, .omegaZero, .fix7Big, .noFit, .commitFull, .commitEmpty] := by
  cases i with
  | omega | fix7 | bits | commit => simp only [rowOf]; split_ifs <;> decide
  | nop | openC | abort => cases h

/-- Outside OPEN those rows are alike: ignored in ERROR, SEQUENCE in IDLE and DONE. -/
theorem cell_of_needsOpen {i : Instr} (s : State) (h : needsOpen i = true) :
    cell (rowOf s (.legal i)) .error = (.error, none) ∧
      ∀ c, c = .idle ∨ c = .done → cell (rowOf s (.legal i)) c = (.error, some .sequence) := by
  have hcell : ∀ r ∈ [Row.appendOk, .omegaZero, .fix7Big, .noFit, .commitFull, .commitEmpty],
      cell r .error = (.error, none) ∧ cell r .idle = (.error, some .sequence) ∧
        cell r .done = (.error, some .sequence) := by decide
  obtain ⟨herror, hidle, hdone⟩ := hcell _ (rowOf_of_needsOpen s h)
  refine ⟨herror, ?_⟩
  rintro c (rfl | rfl)
  · exact hidle
  · exact hdone

theorem cell_of_operandError {i : Instr} {s : State} {c : ErrCode} (h : operandError s i = some c) :
    cell (rowOf s (.legal i)) .opened = (.error, some c) := by
  obtain ⟨rfl, rfl⟩ | ⟨v, rfl, hv, rfl⟩ | ⟨rfl, hb, rfl⟩ := operandError_cases h
  · rfl
  · rw [rowOf, if_pos hv, cell]
  · rw [rowOf, if_pos hb, cell]

/-- The row of an append command that has no operand error is decided by the room. -/
theorem rowOf_of_fragment {i : Instr} {f : Bits} {s : State} (hf : fragment i = some f)
    (h : operandError s i = none) :
    rowOf s (.legal i) = if s.cfg.bufCap < s.blen + f.length then .noFit else .appendOk := by
  have hlong : tooLong s i = decide (s.cfg.bufCap < s.blen + f.length) := by simp only [tooLong, hf]
  cases i with
  | omega n =>
    have hn : n ≠ 0#32 := by simpa [operandError_omega] using h
    simp [rowOf, hn, hlong]
  | fix7 v =>
    have hv : ¬128 ≤ v.toNat := by simpa [operandError_fix7] using h
    simp [rowOf, hv, hlong]
  | bits => simp [rowOf, hlong]
  | nop | openC | commit | abort => cases hf

/-- An append without an operand error, in OPEN: OVERFLOW or the append, as the room decides. -/
theorem exec_fragment_followsCell {i : Instr} {f : Bits} {s : State} (hf : fragment i = some f)
    (ho : s.ctl = .opened) (h : operandError s i = none) :
    ∃ t, exec i s = .next t ∧ FollowsCell (.legal i) s t := by
  have hrow := rowOf_of_fragment hf h
  by_cases hover : s.cfg.bufCap < s.blen + f.length
  · rw [if_pos hover] at hrow
    exact ⟨_, exec_fragment_of_overflow hf ho hover, followsCell_of_raised (by rw [hrow, ho]; rfl)⟩
  · rw [if_neg hover] at hrow
    obtain ⟨t, hexec, ht⟩ := exec_fragment_of_fits hf ho (Nat.not_lt.mp hover)
    have hi : i ≠ .openC := by rintro rfl; cases hf
    refine ⟨t, hexec, followsCell_of_quiet ?_ ?_⟩
    · rw [hrow, ht.ctl, ho]
      rfl
    · rw [ht.err, if_neg (by simpa using hi)]

theorem exec_commit_followsCell {s : State} (ho : s.ctl = .opened) (hb : s.blen ≠ 0) :
    ∃ t, exec .commit s = .next t ∧ FollowsCell (.legal .commit) s t :=
  ⟨_, exec_commit_of_opened ho hb, followsCell_of_quiet (by simp [rowOf, hb, ho, cell]) rfl⟩

/-- The commands that need OPEN, in the order of R182: ERROR, the state, the operand, the room. -/
theorem exec_needsOpen_followsCell {i : Instr} (s : State) (hi : needsOpen i = true) :
    ∃ t, exec i s = .next t ∧ FollowsCell (.legal i) s t := by
  obtain ⟨herror, hsequence⟩ := cell_of_needsOpen s hi
  have hopen : i ≠ .openC := by rintro rfl; cases hi
  cases hc : s.ctl with
  | error =>
    exact ⟨s, exec_needsOpen_of_error hi hc, followsCell_of_quiet (hc ▸ herror) (by simp [hopen])⟩
  | idle | done =>
    have hc' : s.ctl = .idle ∨ s.ctl = .done := by simp [hc]
    exact ⟨_, exec_needsOpen_of_idle_or_done hi hc', followsCell_of_raised (hsequence _ hc')⟩
  | opened =>
    cases hop : operandError s i with
    | some c => exact ⟨_, exec_of_operandError hc hop, followsCell_of_raised (hc ▸ cell_of_operandError hop)⟩
    | none =>
      obtain happend | rfl : isAppend i = true ∨ i = .commit := by simpa [needsOpen] using hi
      · obtain ⟨f, hf⟩ := exists_fragment happend hop
        exact exec_fragment_followsCell hf hc hop
      · exact exec_commit_followsCell hc (by simpa [operandError_commit] using hop)

theorem exec_followsCell (i : Instr) (s : State) :
    ∃ t, exec i s = .next t ∧ FollowsCell (.legal i) s t := by
  cases i with
  | nop | openC | abort => exact ⟨_, rfl, followsCell_of_quiet rfl rfl⟩
  | omega | fix7 | bits | commit => exact exec_needsOpen_followsCell s rfl

theorem illegalWord_followsCell (why : Illegal) (s : State) :
    FollowsCell (.illegal why) s (illegalWord s) := by
  by_cases he : s.ctl = .error
  · rw [illegalWord, unlessError_of_error he]
    exact followsCell_of_quiet (by rw [he]; rfl) rfl
  · rw [illegalWord, unlessError_of_not_error he]
    refine followsCell_of_raised ?_
    cases hc : s.ctl with
    | error => exact absurd hc he
    | idle | opened | done => rfl

/-- Settles O45: every command and every illegal word follows its cell. -/
theorem transitionTable : Obligations.TransitionTable := by
  refine ⟨fun w s => ?_, fun s hs hc => if_pos (hs.idle hc).1, fun s hs hc => if_neg ?_⟩
  · cases hd : decode w with
    | legal i =>
      rw [runWord_of_legal s hd]
      exact exec_followsCell i s
    | illegal why => exact ⟨_, runWord_of_illegal s hd, illegalWord_followsCell why s⟩
  · exact Nat.one_le_iff_ne_zero.mp (hs.done hc).1

/-! ## One delivery per construction (R142, 20_memory.md R57) -/

/-- A step takes the next operation. -/
theorem step_pending {s t : State} (h : step s = .next t) : t.pending = s.pending.tail := by
  obtain ⟨hp, rfl⟩ | ⟨w, rest, hp, hw⟩ | ⟨a, rest, hp, rfl⟩ | ⟨rest, hp, rfl⟩ := step_cases h <;> rw [hp]
  · rfl
  · exact (frame_of_effect (runWord_effect hw)).2.1
  · rfl
  · rfl

/-- Outside OPEN a word other than OPEN neither delivers nor opens. -/
theorem runWord_of_not_opened {w : CmdWord} {s t : State} (hs : s.ctl ≠ .opened)
    (hd : decode w ≠ .legal .openC) (h : runWord w s = .next t) :
    t.sinkLog = s.sinkLog ∧ t.ctl ≠ .opened := by
  cases runWord_wordEffect h with
  | unchanged => exact ⟨rfl, hs⟩
  | raised | abandoned => exact ⟨rfl, by simp⟩
  | started hd' => exact absurd hd' hd
  | appended _ _ _ _ ho | delivered _ ho => exact absurd ho hs

theorem step_of_not_opened {s t : State} (hs : s.ctl ≠ .opened)
    (hop : ∀ op ∈ s.pending.head?, isOpenOp op = false) (h : step s = .next t) :
    t.sinkLog = s.sinkLog ∧ t.ctl ≠ .opened := by
  obtain ⟨-, rfl⟩ | ⟨w, rest, hp, hw⟩ | ⟨a, rest, -, rfl⟩ | ⟨rest, -, rfl⟩ := step_cases h
  · exact ⟨rfl, hs⟩
  · have hd : decode w ≠ .legal .openC := by simpa [hp, isOpenOp] using hop
    exact runWord_of_not_opened (s := { s with pending := rest }) hs hd hw
  · exact ⟨rfl, hs⟩
  · exact ⟨rfl, by simp⟩

theorem forall_mem_take_succ_iff {α : Type} {P : α → Prop} {l : List α} {k : Nat} :
    (∀ a ∈ l.take (k + 1), P a) ↔ (∀ a ∈ l.head?, P a) ∧ ∀ a ∈ l.tail.take k, P a := by
  cases l <;> simp

/-- Settles O47, by induction on the number of steps. -/
theorem noSecondWriteWithoutOpen : Obligations.NoSecondWriteWithoutOpen := by
  intro s t k hs hops h
  induction k generalizing s with
  | zero =>
    cases h
    exact ⟨rfl, hs⟩
  | succ k ih =>
    rw [runSteps] at h
    split at h
    · next u hu =>
      obtain ⟨hhead, htail⟩ := forall_mem_take_succ_iff.mp hops
      obtain ⟨hlog, hctl⟩ := step_of_not_opened hs hhead hu
      rw [← step_pending hu] at htail
      obtain ⟨hlog', hctl'⟩ := ih u hctl htail h
      exact ⟨hlog'.trans hlog, hctl'⟩
    · cases h
    · cases h

end Sys2Proof.Proofs

namespace Sys2Proof.Proofs

open Sys2Proof Sys2Proof.Machine Sys2Proof.Claims

/-! # The header (43_header_format.md)

## The reference parser (R165) -/

/-- `parse_header` without its last check: the entries, and the position after them. -/
def readHeader (s : Bits) : Except ParseFailure (List CodeEntry × Nat) :=
  (omegaDecode s 0).bind fun r => parseEntries s r.1 r.2

theorem parseHeader_eq (s : Bits) : parseHeader s =
    (readHeader s).bind fun r => if r.2 ≠ s.length then .error .trailingBits else .ok r.1 := by
  rw [parseHeader, readHeader]
  cases omegaDecode s 0 with
  | error f => rfl
  | ok r =>
    dsimp only [Except.bind]
    cases parseEntries s r.1 r.2 <;> rfl

theorem parseHeader_of_ok {s : Bits} {es : List CodeEntry} {q : Nat} (h : readHeader s = .ok (es, q)) :
    parseHeader s = if q ≠ s.length then .error .trailingBits else .ok es := by
  rw [parseHeader_eq, h]
  rfl

theorem parseHeader_of_error {s : Bits} {f : ParseFailure} (h : readHeader s = .error f) :
    parseHeader s = .error f := by
  rw [parseHeader_eq, h]
  rfl

theorem readHeader_of_ok {s : Bits} {u p : Nat} (h : omegaDecode s 0 = .ok (u, p)) :
    readHeader s = parseEntries s u p := by
  rw [readHeader, h]
  rfl

theorem readHeader_of_error {s : Bits} {f : ParseFailure} (h : omegaDecode s 0 = .error f) :
    readHeader s = .error f := by
  rw [readHeader, h]
  rfl

/-- One turn of the parser's loop, whose two reads succeed. -/
theorem parseEntries_succ_of_ok {s : Bits} {u p n p' : Nat} (hsym : p + 7 ≤ s.length)
    (hn : omegaDecode s (p + 7) = .ok (n, p')) (hword : p' + n ≤ s.length) :
    parseEntries s (u + 1) p =
      (parseEntries s u (p' + n)).map fun r => ((val (slice s p (p + 7)), slice s p' (p' + n)) :: r.1, r.2) := by
  simp only [parseEntries, if_neg (Nat.not_lt.mpr hsym), hn, if_neg (Nat.not_lt.mpr hword)]
  split <;> simp only [*, Except.map]

/-- What a turn of the loop that gives entries has read. -/
theorem parseEntries_succ_inv {s : Bits} {u p q : Nat} {es : List CodeEntry}
    (h : parseEntries s (u + 1) p = .ok (es, q)) : ∃ n p' rest, p + 7 ≤ s.length ∧
      omegaDecode s (p + 7) = .ok (n, p') ∧ p' + n ≤ s.length ∧ parseEntries s u (p' + n) = .ok (rest, q) ∧
      es = (val (slice s p (p + 7)), slice s p' (p' + n)) :: rest := by
  unfold parseEntries at h
  split_ifs at h with hsym
  split at h
  · cases h
  next n p' hn =>
    split_ifs at h with hword
    split at h
    · cases h
    next rest q' hrest =>
      cases h
      exact ⟨n, p', rest, Nat.not_lt.mp hsym, hn, Nat.not_lt.mp hword, hrest, rfl⟩

/-! ### The parser reads a header's entries, whatever follows them -/

theorem entryBits_eq_some_iff {e : CodeEntry} {b : Bits} : entryBits e = some b ↔
    e.1 < 128 ∧ ∃ o, Machine.omega e.2.length = some o ∧ b = fixed e.1 7 ++ o ++ e.2 := by
  obtain hlt | hge := Nat.lt_or_ge e.1 128
  · cases ho : Machine.omega e.2.length <;> simp [entryBits, fix7_of_lt hlt, ho, hlt, eq_comm]
  · simp [entryBits, fix7_of_ge hge, hge]

theorem entriesBits_cons_eq_some_iff {e : CodeEntry} {es : List CodeEntry} {b : Bits} :
    entriesBits (e :: es) = some b ↔
      ∃ c d, entryBits e = some c ∧ entriesBits es = some d ∧ b = c ++ d := by
  cases hc : entryBits e <;> cases hd : entriesBits es <;> simp [entriesBits, hc, hd, eq_comm]

theorem header_eq_some_iff {es : List CodeEntry} {b : Bits} : header es = some b ↔
    ∃ u d, Machine.omega es.length = some u ∧ entriesBits es = some d ∧ b = u ++ d := by
  cases hu : Machine.omega es.length <;> cases hd : entriesBits es <;> simp [header, hu, hd, eq_comm]

/-- The loop reads the entries back wherever they stand. -/
theorem parseEntries_entriesBits {es : List CodeEntry} {b : Bits} (h : entriesBits es = some b) (p t : Bits) :
    parseEntries (p ++ b ++ t) es.length p.length = .ok (es, p.length + b.length) := by
  induction es generalizing b p with
  | nil =>
    cases h
    rfl
  | cons e es ih =>
    obtain ⟨c, d, hc, hd, rfl⟩ := entriesBits_cons_eq_some_iff.mp h
    obtain ⟨hlt, o, ho, rfl⟩ := entryBits_eq_some_iff.mp hc
    have hsym := slice_append_middle p (fixed e.1 7) (o ++ e.2 ++ d ++ t)
    have hlen := omegaDecode_omega ho (p ++ fixed e.1 7) (e.2 ++ d ++ t)
    have hword := slice_append_middle (p ++ fixed e.1 7 ++ o) e.2 (d ++ t)
    have hrest := ih hd (p ++ fixed e.1 7 ++ o ++ e.2)
    simp only [List.append_assoc, List.length_append, length_fixed, Nat.add_assoc] at hsym hlen hword hrest ⊢
    rw [List.length_cons, parseEntries_succ_of_ok (by simp) hlen (by simp; omega)]
    simp only [Nat.add_assoc, hsym, hword, hrest, val_fixed (w := 7) hlt]
    rfl

theorem readHeader_header {es : List CodeEntry} {h : Bits} (hh : header es = some h) (t : Bits) :
    readHeader (h ++ t) = .ok (es, h.length) := by
  obtain ⟨u, d, hu, hd, rfl⟩ := header_eq_some_iff.mp hh
  have hcount := omegaDecode_omega hu [] (d ++ t)
  rw [List.nil_append, List.length_nil, Nat.zero_add, ← List.append_assoc] at hcount
  rw [readHeader_of_ok hcount, parseEntries_entriesBits hd, List.length_append]

/-! ### What the parser reads, it reads also with bits after it -/

theorem slice_append_of_le {s : Bits} {i j : Nat} (h : j ≤ s.length) (t : Bits) :
    slice (s ++ t) i j = slice s i j := by
  obtain hij | hij := Nat.le_total i j
  · rw [slice, slice, List.drop_append_of_le_length (hij.trans h), List.take_append_of_le_length (by simp; omega)]
  · simp [slice, Nat.sub_eq_zero_of_le hij]

/-- A turn of `omega_decode` (40_integer_codecs.md R105). -/
theorem omegaDecodeLoop_succ (s : Bits) (fuel len pos : Nat) : omegaDecodeLoop s (fuel + 1) len pos =
    if s.length < pos + len then .error .truncated
    else if (slice s pos (pos + len))[0]? = some true then .ok (val (slice s pos (pos + len)), pos + len)
    else omegaDecodeLoop s fuel (val (set0 (slice s pos (pos + len))) + 1) (pos + len) := rfl

theorem omegaDecodeLoop_append {s : Bits} (t : Bits) {fuel len pos n q : Nat}
    (h : omegaDecodeLoop s fuel len pos = .ok (n, q)) {fuel' : Nat} (hf : fuel ≤ fuel') :
    omegaDecodeLoop (s ++ t) fuel' len pos = .ok (n, q) ∧ q ≤ s.length := by
  induction fuel generalizing fuel' len pos with
  | zero => cases h
  | succ fuel ih =>
    obtain ⟨fuel', rfl⟩ : ∃ k, fuel' = k + 1 := ⟨fuel' - 1, by omega⟩
    rw [omegaDecodeLoop_succ] at h ⊢
    split_ifs at h with hlen hfirst
    all_goals
      have hin := Nat.not_lt.mp hlen
      rw [if_neg (by simp; omega), slice_append_of_le hin]
    · rw [if_pos hfirst]
      cases h
      exact ⟨rfl, hin⟩
    · rw [if_neg hfirst]
      exact ih h (by omega)

theorem omegaDecode_append {s : Bits} {pos n q : Nat} (h : omegaDecode s pos = .ok (n, q)) (t : Bits) :
    omegaDecode (s ++ t) pos = .ok (n, q) ∧ q ≤ s.length :=
  omegaDecodeLoop_append t h (by simp)

theorem parseEntries_append {s : Bits} {u p q : Nat} {es : List CodeEntry} (hp : p ≤ s.length)
    (h : parseEntries s u p = .ok (es, q)) (t : Bits) :
    parseEntries (s ++ t) u p = .ok (es, q) ∧ q ≤ s.length := by
  induction u generalizing p es with
  | zero =>
    cases h
    exact ⟨rfl, hp⟩
  | succ u ih =>
    obtain ⟨n, p', rest, hsym, hn, hword, hrest, rfl⟩ := parseEntries_succ_inv h
    obtain ⟨hrest', hq⟩ := ih hword hrest
    rw [parseEntries_succ_of_ok (by simp; omega) (omegaDecode_append hn t).1 (by simp; omega), hrest',
      slice_append_of_le hsym, slice_append_of_le hword]
    exact ⟨rfl, hq⟩

theorem readHeader_append {s : Bits} {es : List CodeEntry} {q : Nat} (h : readHeader s = .ok (es, q)) (t : Bits) :
    readHeader (s ++ t) = .ok (es, q) ∧ q ≤ s.length := by
  cases hd : omegaDecode s 0 with
  | error f => cases (readHeader_of_error hd).symm.trans h
  | ok r =>
    obtain ⟨hd', hp⟩ := omegaDecode_append hd t
    rw [readHeader_of_ok hd] at h
    rw [readHeader_of_ok hd']
    exact parseEntries_append hp h t

/-! ### Until its last check the parser fails in one way only -/

theorem truncated_of_omegaDecodeLoop {s : Bits} {fuel len pos : Nat} {f : ParseFailure}
    (h : omegaDecodeLoop s fuel len pos = .error f) : f = .truncated := by
  induction fuel generalizing len pos with
  | zero =>
    cases h
    rfl
  | succ fuel ih =>
    rw [omegaDecodeLoop_succ] at h
    split_ifs at h
    · cases h
      rfl
    · exact ih h

theorem truncated_of_parseEntries {s : Bits} {u p : Nat} {f : ParseFailure}
    (h : parseEntries s u p = .error f) : f = .truncated := by
  induction u generalizing p with
  | zero => cases h
  | succ u ih =>
    rw [parseEntries] at h
    split_ifs at h
    · cases h
      rfl
    split at h
    next hd =>
      cases h
      exact truncated_of_omegaDecodeLoop hd
    split_ifs at h
    · cases h
      rfl
    split at h
    next hrest =>
      cases h
      exact ih hrest
    · cases h

theorem truncated_of_readHeader {s : Bits} {f : ParseFailure} (h : readHeader s = .error f) :
    f = .truncated := by
  cases hd : omegaDecode s 0 with
  | error g =>
    cases (readHeader_of_error hd).symm.trans h
    exact truncated_of_omegaDecodeLoop hd
  | ok r =>
    rw [readHeader_of_ok hd] at h
    exact truncated_of_parseEntries h

/-- Settles O52. A proper prefix cannot be read to a position within it, since the header is read to its end. -/
theorem parseHeaderInvertsHeader : Obligations.ParseHeaderInvertsHeader := by
  intro es h hh
  refine ⟨?_, fun t ht => ?_, fun p hp hne => ?_⟩
  · have hread := readHeader_header hh []
    rw [List.append_nil] at hread
    rw [parseHeader_of_ok hread, if_neg (not_not.mpr rfl)]
  · rw [parseHeader_of_ok (readHeader_header hh t), if_pos (by simpa using ht)]
  · obtain ⟨t, rfl⟩ := hp
    cases hread : readHeader p with
    | error f => rw [parseHeader_of_error hread, truncated_of_readHeader hread]
    | ok r =>
      obtain ⟨es', q⟩ := r
      obtain ⟨hread', hq⟩ := readHeader_append hread t
      have hall := readHeader_header hh []
      rw [List.append_nil, hread'] at hall
      cases hall
      have ht : t = [] := by simpa using hq
      simp [ht] at hne

/-! ## The Host's command sequence (R162)

### Its commands are the assembler's (30_encoding.md R78) -/

/-- The commands of an `entry` line. -/
def entrySequence (e : CodeEntry) : List Instr :=
  .fix7 (BitVec.ofNat 32 e.1) :: .omega (BitVec.ofNat 32 e.2.length) :: chunkCommands e.2

/-- What R160 and R162 ask of an entry, as far as the commands depend on it. -/
structure LegalEntry (e : CodeEntry) : Prop where
  symbol : e.1 < 128
  nonempty : 1 ≤ e.2.length
  short : e.2.length < 2 ^ 32

theorem asmEntry_eq {e : CodeEntry} (h : LegalEntry e) : asmEntry e.1 e.2 = some (entrySequence e) := by
  have hsym : e.1 < 2 ^ 32 := h.symbol.trans (by decide)
  rw [asmEntry, asmFix7, asmOmega, if_pos hsym, if_pos h.short, asmCw_eq h.nonempty]
  rfl

theorem entriesCommands_eq {es : List CodeEntry} (h : ∀ e ∈ es, LegalEntry e) :
    entriesCommands es = some (es.flatMap entrySequence) := by
  induction es with
  | nil => rfl
  | cons e es ih =>
    rw [entriesCommands, asmEntry_eq (h e (by simp)), ih fun e' he' => h e' (by simp [he'])]
    rfl

/-- The commands of R162 between OPEN and COMMIT. -/
def headerAppends (es : List CodeEntry) : List Instr :=
  .omega (BitVec.ofNat 32 es.length) :: es.flatMap entrySequence

theorem headerSequence_eq (es : List CodeEntry) :
    headerSequence es = .openC :: (headerAppends es ++ [.commit]) := rfl

theorem headerCommands_eq {es : List CodeEntry} (hn : es.length < 2 ^ 32) (h : ∀ e ∈ es, LegalEntry e) :
    headerCommands es = some (headerSequence es) := by
  rw [headerCommands, asmOmega, if_pos hn, entriesCommands_eq h]
  rfl

theorem wellFormed_entrySequence {e : CodeEntry} (h : LegalEntry e) :
    ∀ i ∈ entrySequence e, i.wellFormed = true := by
  obtain ⟨-, hchunks, -⟩ := pseudoInstructionExpansions
  intro i hi
  obtain rfl | rfl | hi : i = _ ∨ i = _ ∨ i ∈ chunkCommands e.2 := by simpa [entrySequence] using hi
  · rfl
  · rfl
  · exact hchunks e.2 h.nonempty i hi

theorem wellFormed_headerSequence {es : List CodeEntry} (h : ∀ e ∈ es, LegalEntry e) :
    ∀ i ∈ headerSequence es, i.wellFormed = true := by
  intro i hi
  simp only [headerSequence_eq, headerAppends, List.mem_cons, List.mem_append, List.mem_flatMap,
    List.not_mem_nil, or_false] at hi
  obtain rfl | (rfl | ⟨e, he, hi⟩) | rfl := hi
  · rfl
  · rfl
  · exact wellFormed_entrySequence (h e he) i hi
  · rfl

/-! ### Its fragments make the header (R160) -/

theorem fragment_omega_ofNat {n : Nat} (h1 : 1 ≤ n) (h : n < 2 ^ 32) :
    fragment (.omega (BitVec.ofNat 32 n)) = some ((Machine.omega n).getD []) := by
  rw [fragment, BitVec.toNat_ofNat, Nat.mod_eq_of_lt h, omega_pos h1, Option.getD_some]

theorem fragment_fix7_ofNat {v : Nat} (h : v < 128) :
    fragment (.fix7 (BitVec.ofNat 32 v)) = some (fixed v 7) := by
  have hv : (BitVec.ofNat 32 v).toNat = v := by
    rw [BitVec.toNat_ofNat, Nat.mod_eq_of_lt (h.trans (by decide))]
  rw [fragment, hv, fix7_of_lt h]

theorem flatten_chunksOf {fuel : Nat} {s : Bits} (h : s.length ≤ fuel) : (chunksOf fuel s).flatten = s := by
  induction fuel generalizing s with
  | zero => simp [chunksOf, List.eq_nil_of_length_eq_zero (Nat.le_zero.mp h)]
  | succ fuel ih =>
    rw [chunksOf, lMax]
    split
    · simp
    · rw [List.flatten_cons, ih (by rw [List.length_drop]; omega), List.take_append_drop]

/-- The chunks' commands append the whole string (R78). -/
theorem fragments_chunkCommands {s : Bits} (h : 1 ≤ s.length) : ∃ fs : List Bits,
    (chunkCommands s).map fragment = fs.map some ∧ fs.flatten = s := by
  refine ⟨chunksOf s.length s, ?_, flatten_chunksOf le_rfl⟩
  rw [chunksOf_eq h le_rfl, chunkCommands_eq, List.map_map]
  refine List.map_congr_left fun c hc => ?_
  obtain ⟨i, hi, rfl⟩ := List.mem_map.mp hc
  exact fragment_bitsOf (length_chunk (List.mem_range.mp hi))

/-- The bits of an entry (R160). -/
def entryFragment (e : CodeEntry) : Bits := fixed e.1 7 ++ (Machine.omega e.2.length).getD [] ++ e.2

theorem headerBits_eq (es : List CodeEntry) :
    headerBits es = (Machine.omega es.length).getD [] ++ es.flatMap entryFragment := rfl

theorem fragments_entrySequence {e : CodeEntry} (h : LegalEntry e) : ∃ fs : List Bits,
    (entrySequence e).map fragment = fs.map some ∧
      fs.flatten = entryFragment e := by
  obtain ⟨fs, hfs, hflat⟩ := fragments_chunkCommands h.nonempty
  refine ⟨fixed e.1 7 :: (Machine.omega e.2.length).getD [] :: fs, ?_, by simp [entryFragment, hflat]⟩
  simp [entrySequence, fragment_fix7_ofNat h.symbol, fragment_omega_ofNat h.nonempty h.short, hfs]

theorem fragments_entries {es : List CodeEntry} (h : ∀ e ∈ es, LegalEntry e) : ∃ fs : List Bits,
    (es.flatMap entrySequence).map fragment = fs.map some ∧
      fs.flatten = es.flatMap entryFragment := by
  induction es with
  | nil => exact ⟨[], rfl, rfl⟩
  | cons e es ih =>
    obtain ⟨fs, hfs, hflat⟩ := fragments_entrySequence (h e (by simp))
    obtain ⟨gs, hgs, hflat'⟩ := ih fun e' he' => h e' (by simp [he'])
    exact ⟨fs ++ gs, by simp [hfs, hgs], by simp [hflat, hflat']⟩

theorem fragments_headerAppends {es : List CodeEntry} (h1 : 1 ≤ es.length) (hn : es.length < 2 ^ 32)
    (h : ∀ e ∈ es, LegalEntry e) : ∃ fs : List Bits,
    (headerAppends es).map fragment = fs.map some ∧ fs.flatten = headerBits es := by
  obtain ⟨fs, hfs, hflat⟩ := fragments_entries h
  exact ⟨(Machine.omega es.length).getD [] :: fs, by simp [headerAppends, fragment_omega_ofNat h1 hn, hfs],
    by rw [List.flatten_cons, hflat, headerBits_eq]⟩

theorem entryBits_of_legal {e : CodeEntry} (h : LegalEntry e) : entryBits e = some (entryFragment e) :=
  entryBits_eq_some_iff.mpr
    ⟨h.symbol, _, omega_pos h.nonempty, by rw [entryFragment, omega_pos h.nonempty, Option.getD_some]⟩

theorem entriesBits_of_legal {es : List CodeEntry} (h : ∀ e ∈ es, LegalEntry e) :
    entriesBits es = some (es.flatMap entryFragment) := by
  induction es with
  | nil => rfl
  | cons e es ih =>
    exact entriesBits_cons_eq_some_iff.mpr
      ⟨_, _, entryBits_of_legal (h e (by simp)), ih fun e' he' => h e' (by simp [he']), rfl⟩

theorem header_eq {es : List CodeEntry} (h1 : 1 ≤ es.length) (h : ∀ e ∈ es, LegalEntry e) :
    header es = some (headerBits es) :=
  header_eq_some_iff.mpr
    ⟨_, _, omega_pos h1, entriesBits_of_legal h, by rw [headerBits_eq, omega_pos h1, Option.getD_some]⟩

theorem headerBits_ne_nil {es : List CodeEntry} (h1 : 1 ≤ es.length) : headerBits es ≠ [] := by
  simp [headerBits_eq, omega_pos h1, bin_eq_cons h1]

/-! ### A construction from OPEN to COMMIT (42_control.md R141, R142) -/

/-- `t` is a state after OPEN, appends of `f` in total, and COMMIT, from `s`: delivered, or OVERFLOW. -/
structure Constructed (s t : State) (f : Bits) : Prop where
  reads : t.reads = s.reads
  done : f.length ≤ s.cfg.bufCap → t.ctl = .done ∧ t.err = .noError ∧ t.blen = f.length ∧
    t.sinkLog = s.sinkLog ++ [f]
  overflow : s.cfg.bufCap < f.length → t.ctl = .error ∧ t.err = .overflow ∧ t.sinkLog = s.sinkLog

theorem execAll_append_of_next {is : List Instr} (js : List Instr) {s t : State} (h : execAll is s = .next t) :
    execAll (is ++ js) s = execAll js t := by
  induction is generalizing s with
  | nil =>
    cases h
    rfl
  | cons i is ih =>
    rw [execAll] at h
    split at h
    · next u hu => rw [List.cons_append, execAll_cons_of_next _ hu, ih h]
    · cases h
    · cases h

theorem execAll_singleton {i : Instr} {s t : State} (h : exec i s = .next t) : execAll [i] s = .next t :=
  execAll_cons_of_next [] h

theorem execAll_construction {is : List Instr} {fs : List Bits} (s : State)
    (hfs : is.map fragment = fs.map some) (hne : fs.flatten ≠ []) :
    ∃ t, execAll (.openC :: (is ++ [.commit])) s = .next t ∧ Constructed s t fs.flatten := by
  rw [execAll_cons_of_next _ (exec_openC s)]
  have hopen : (Laws.openState s).ctl = .opened := rfl
  obtain hfits | hover := le_or_gt fs.flatten.length s.cfg.bufCap
  · have hfits' : (Laws.openState s).blen + fs.flatten.length ≤ (Laws.openState s).cfg.bufCap :=
      (Nat.zero_add _).trans_le hfits
    have hrun := execAll_fragments_of_fits hfs hopen hfits'
    have hstream : (bufAppend fs.flatten (Laws.openState s)).stream = fs.flatten :=
      stream_bufAppend_of_fits hfits'
    rw [bufAppend_of_fits hfits'] at hrun hstream
    have hblen : (Laws.openState s).blen + fs.flatten.length = fs.flatten.length := Nat.zero_add _
    have hpos : (Laws.openState s).blen + fs.flatten.length ≠ 0 := by
      rw [hblen]
      exact Nat.ne_of_gt (List.length_pos_of_ne_nil hne)
    refine ⟨_, (execAll_append_of_next _ hrun).trans (execAll_singleton (exec_commit_of_opened hopen hpos)),
      rfl, fun _ => ⟨rfl, rfl, hblen, congrArg (fun f => s.sinkLog ++ [f]) hstream⟩,
      fun hover => absurd hfits hover.not_ge⟩
  · have hfs' : fs ≠ [] := by
      rintro rfl
      exact hne rfl
    obtain ⟨buf, lastlen, hrun⟩ := execAll_fragments_of_overflow hfs hfs' hopen
      (hover.trans_eq (Nat.zero_add _).symm)
    exact ⟨_, (execAll_append_of_next _ hrun).trans (execAll_singleton (exec_needsOpen_of_error rfl rfl)),
      rfl, fun hfits => absurd hfits hover.not_ge, fun _ => ⟨rfl, rfl, rfl⟩⟩

/-! ### The commands issued as words -/

theorem issue_encode {is : List Instr} (hwf : ∀ i ∈ is, i.wellFormed = true) {s t : State}
    (h : execAll is s = .next t) :
    issue (is.map fun i => .cmd (encode i)) (s.withPending []) = .next (t.withPending []) := by
  induction is generalizing s with
  | nil =>
    cases h
    rfl
  | cons i is ih =>
    rw [execAll] at h
    split at h
    · next u hu =>
      have hdecode := decodeOfEncodeIsTheInstruction i (hwf i (by simp))
      have hfirst := issue_cmd ((runWord_of_legal s hdecode).trans hu)
      exact (issue_append_of_next _ hfirst).trans (ih (fun j hj => hwf j (by simp [hj])) h)
    · cases h
    · cases h

theorem issue_headerSequence {s t : State} {es : List CodeEntry} (h : ∀ e ∈ es, LegalEntry e)
    (hrun : execAll (headerSequence es) s = .next t) :
    issue ((headerSequence es).map fun i => .cmd (encode i)) s = .next (t.withPending []) :=
  issue_encode (wellFormed_headerSequence h) hrun

theorem readReg_status_eq_two {s : State} (hc : s.ctl = .done) (he : s.err = .noError) :
    readReg s 0x0#4 = 0x00000002#32 := by
  rw [readReg_status, statusWord, hc, he]
  decide

theorem readReg_status_of_overflow {s : State} (hc : s.ctl = .error) (he : s.err = .overflow) :
    readReg s 0x0#4 = 0x00000063#32 := by
  rw [readReg_status, statusWord, hc, he]
  decide

/-- After the commands the Host's poll is one read, which returns STATUS (20_memory.md R60). -/
theorem runProgram_of_issue {cs : List Instr} {s t : State} (polls : Nat) (hp : t.pending = [])
    (h : issue (cs.map fun i => .cmd (encode i)) s = .next t) (hover : t.ctl = .done ∨ t.ctl = .error) :
    runProgram (polls + 1) cs s = .next { t with reads := t.reads ++ [readReg t 0x0#4] } := by
  rw [runProgram, h]
  exact (pollStatus_of_over polls hover).trans (by rw [← hp])

/-- Settles O51: the commands are one construction of the header, and the poll ends at its first read. -/
theorem hostSequenceDeliversTheHeader : Obligations.HostSequenceDeliversTheHeader := by
  intro s es hlegal h1 hn hes
  have hentries : ∀ e ∈ es, LegalEntry e := fun e he =>
    have ⟨hsym, hpos, hshort⟩ := hes e he
    ⟨hsym, hpos, hshort⟩
  have hcap : s.cfg.bufCap < 2 ^ 32 := by
    simp only [Config.legal, Bool.and_eq_true, decide_eq_true_eq] at hlegal
    exact hlegal.2
  have hcmds := headerCommands_eq hn hentries
  obtain ⟨fs, hfs, hflat⟩ := fragments_headerAppends h1 hn hentries
  obtain ⟨t, hrun, hreads, hdone, hoverflow⟩ :=
    execAll_construction s hfs (hflat ▸ headerBits_ne_nil h1)
  rw [← headerSequence_eq] at hrun
  rw [hflat] at hdone hoverflow
  have hissue := issue_headerSequence hentries hrun
  have hover : t.ctl = .done ∨ t.ctl = .error := by
    obtain hfits | hlong := le_or_gt (headerBits es).length s.cfg.bufCap
    · exact .inl (hdone hfits).1
    · exact .inr (hoverflow hlong).1
  refine ⟨header_eq h1 hentries, hcmds, t.withPending [], ?_, rfl, fun hfits => ?_, fun hlong => ?_,
    hreads, fun polls => ?_⟩
  · have hsteps := (runSteps_of_issue _ rfl (issue_encode (wellFormed_headerSequence hentries) hrun)).2
    rwa [List.length_map] at hsteps
  · obtain ⟨hctl, herr, hblen, hlog⟩ := hdone hfits
    refine ⟨hctl, hlog, ?_, readReg_status_eq_two hctl herr⟩
    rw [readReg_blenr, BitVec.toNat_ofNat]
    exact (Nat.mod_eq_of_lt (by simp [State.withPending, hblen]; omega)).trans hblen
  · obtain ⟨hctl, herr, hlog⟩ := hoverflow hlong
    exact ⟨hctl, herr, hlog, readReg_status_of_overflow hctl herr⟩
  · rw [buildHeader, hcmds, Option.map_some, runProgram_of_issue polls rfl hissue hover]
    simp [State.withPending, hreads]

/-! ## The Host's code words (R161, R164) -/

/-- The FrequencyTable is the symbols that occur, ascending, each with its count (R164 step 1). -/
theorem frequencies_eq (text : List Nat) : frequencies text =
    ((List.range 128).filter fun s => decide (s ∈ text)).map fun s => (s, text.count s) := by
  rw [frequencies, nSym, List.filter_map]
  congr 1
  refine List.filter_congr fun s _ => ?_
  rw [Bool.eq_iff_iff]
  simp [List.count_eq_zero]

/-- What is found for the keys, in their order, has some of the keys, in their order. -/
theorem map_fst_filterMap_find_sublist (m : List CodeEntry) (ks : List Nat) :
    ((ks.filterMap fun k => m.find? fun e => e.1 == k).map Prod.fst).Sublist ks := by
  induction ks with
  | nil => exact .slnil
  | cons k ks ih =>
    cases hfind : m.find? fun e => e.1 == k with
    | none =>
      rw [List.filterMap_cons, hfind]
      exact ih.cons k
    | some e =>
      have hkey : e.1 = k := by simpa using List.find?_some hfind
      rw [List.filterMap_cons, hfind]
      exact hkey ▸ ih.cons_cons k

/-- The label the merges of R164 end with, from the seeds of the FrequencyTable. -/
def mergedWords (fs : List (Nat × Nat)) : List CodeEntry :=
  huffMerge (huffSeeds 0 fs).length (huffSeeds 0 fs).length (huffSeeds 0 fs)

/-- What the code words of a text are: "0" for its only symbol, or looked up in what the merges end with. -/
theorem codeWords_cases (text : List Nat) :
    (∃ s c, frequencies text = [(s, c)] ∧ codeWords text = [(s, [false])]) ∨
      codeWords text = ((frequencies text).map Prod.fst).filterMap fun k =>
        (mergedWords (frequencies text)).find? fun e => e.1 == k := by
  unfold codeWords
  split
  next s c hfs => exact .inl ⟨s, c, hfs, rfl⟩
  next => exact .inr (by rw [List.filterMap_map]; rfl)

/-- The code words stand in the order of the FrequencyTable, each symbol's once. -/
theorem map_fst_codeWords (text : List Nat) :
    (codeWords text).map Prod.fst = (frequencies text).map Prod.fst := by
  obtain ⟨s, c, hfs, hwords⟩ | hwords := codeWords_cases text
  · rw [hwords, hfs]
    rfl
  · refine List.Sublist.eq_of_length ?_ (Laws.codeWords_spec text).1.length_eq
    rw [hwords]
    exact map_fst_filterMap_find_sublist _ _

/-! ### The merges keep labels prefix-free (R164 step 5) -/

theorem mem_prependBit {b : Bool} {l : List CodeEntry} {e : CodeEntry} :
    e ∈ prependBit b l ↔ ∃ e' ∈ l, e = (e'.1, b :: e'.2) := by
  simp [prependBit, eq_comm]

theorem prefixFree_nil : PrefixFree [] := by
  intro e he
  cases he

theorem prefixFree_singleton (e : CodeEntry) : PrefixFree [e] := by
  intro e₁ h₁ e₂ h₂ _
  rw [List.mem_singleton.mp h₁, List.mem_singleton.mp h₂]

theorem prefixFree_of_subset {l m : List CodeEntry} (hm : PrefixFree m) (h : l ⊆ m) : PrefixFree l :=
  fun e he e' he' => hm e (h he) e' (h he')

theorem prefixFree_prependBit {l : List CodeEntry} (h : PrefixFree l) (b : Bool) :
    PrefixFree (prependBit b l) := by
  intro e he e' he' hpre
  obtain ⟨d, hd, rfl⟩ := mem_prependBit.mp he
  obtain ⟨d', hd', rfl⟩ := mem_prependBit.mp he'
  obtain rfl := h d hd d' hd' (List.cons_prefix_cons.mp hpre).2
  rfl

/-- The bit put before the words tells the two labels of a merge apart. -/
theorem not_prefix_of_prependBit_ne {b b' : Bool} {l r : List CodeEntry} (hb : b ≠ b') :
    ∀ e ∈ prependBit b l, ∀ e' ∈ prependBit b' r, ¬e.2 <+: e'.2 := by
  intro e he e' he' hpre
  obtain ⟨d, -, rfl⟩ := mem_prependBit.mp he
  obtain ⟨d', -, rfl⟩ := mem_prependBit.mp he'
  exact hb (List.cons_prefix_cons.mp hpre).1

theorem prefixFree_merge {l r : List CodeEntry} (hl : PrefixFree l) (hr : PrefixFree r) :
    PrefixFree (prependBit false l ++ prependBit true r) := by
  intro e he e' he' hpre
  obtain he | he := List.mem_append.mp he <;> obtain he' | he' := List.mem_append.mp he'
  · exact prefixFree_prependBit hl false e he e' he' hpre
  · exact absurd hpre (not_prefix_of_prependBit_ne Bool.false_ne_true e he e' he')
  · exact absurd hpre (not_prefix_of_prependBit_ne Bool.false_ne_true.symm e he e' he')
  · exact prefixFree_prependBit hr true e he e' he' hpre

/-- Every node of the queue has a prefix-free label. -/
def PrefixFreeQueue (q : List HuffNode) : Prop := ∀ n ∈ q, PrefixFree n.label

theorem prefixFreeQueue_huffInsert {n : HuffNode} {q : List HuffNode} (hn : PrefixFree n.label)
    (hq : PrefixFreeQueue q) : PrefixFreeQueue (huffInsert n q) := by
  intro m hm
  obtain rfl | hm := List.mem_cons.mp ((Laws.huffInsert_perm n q).mem_iff.mp hm)
  · exact hn
  · exact hq m hm

theorem prefixFreeQueue_huffSeeds (seq : Nat) (fs : List (Nat × Nat)) : PrefixFreeQueue (huffSeeds seq fs) := by
  induction fs generalizing seq with
  | nil =>
    intro n hn
    cases hn
  | cons p fs ih => exact prefixFreeQueue_huffInsert (prefixFree_singleton _) (ih (seq + 1))

theorem prefixFree_huffMerge (fuel seq : Nat) (q : List HuffNode) (hq : PrefixFreeQueue q) :
    PrefixFree (huffMerge fuel seq q) := by
  induction fuel, seq, q using huffMerge.induct with
  | case1 fuel seq a b rest ih =>
    have ha := hq a (by simp)
    have hb := hq b (by simp)
    have hrest : PrefixFreeQueue rest := fun n hn => hq n (by simp [hn])
    exact ih (prefixFreeQueue_huffInsert (prefixFree_merge ha hb) hrest)
  | case2 fuel seq a rest h =>
    rw [huffMerge]
    · exact hq a (by simp)
    · exact h
  | case3 fuel seq =>
    rw [huffMerge]
    exact prefixFree_nil

theorem prefixFree_mergedWords (fs : List (Nat × Nat)) : PrefixFree (mergedWords fs) :=
  prefixFree_huffMerge _ _ _ (prefixFreeQueue_huffSeeds 0 fs)

theorem prefixFree_codeWords (text : List Nat) : PrefixFree (codeWords text) := by
  obtain ⟨s, c, -, hwords⟩ | hwords := codeWords_cases text <;> rw [hwords]
  · exact prefixFree_singleton _
  · refine prefixFree_of_subset (prefixFree_mergedWords (frequencies text)) fun e he => ?_
    obtain ⟨k, -, hfind⟩ := List.mem_filterMap.mp he
    exact List.mem_of_find?_eq_some hfind

/-- Settles O53: the symbols by the order of the FrequencyTable, the words by the merges that made them. -/
theorem codeWordsFormAPrefixCode : Obligations.CodeWordsFormAPrefixCode := by
  refine fun text => ⟨?_, fun e he => ?_, prefixFree_codeWords text⟩
  · simp [map_fst_codeWords, frequencies_eq, Function.comp_def]
  · exact List.ne_nil_of_length_pos (Laws.codeWord_length_le text e he).1

/-! ## A text of one distinct symbol (R164 step 2, R166 item 3) -/

theorem frequencies_replicate {a k : Nat} (ha : a < 128) (hk : 1 ≤ k) :
    frequencies (List.replicate k a) = [(a, k)] := by
  have hsyms : ((List.range 128).filter fun s => decide (s ∈ List.replicate k a)) = [a] := by
    have hmem : ∀ s, s ∈ List.replicate k a ↔ s = a := by simp [List.mem_replicate, Nat.ne_of_gt hk]
    simp only [hmem, List.filter_eq, List.count_eq_one_of_mem List.nodup_range (List.mem_range.mpr ha),
      List.replicate_one]
  rw [frequencies_eq, hsyms, List.map_singleton, List.count_replicate_self]

theorem codeWords_of_frequencies_singleton {text : List Nat} {s c : Nat} (h : frequencies text = [(s, c)]) :
    codeWords text = [(s, [false])] := by
  rw [codeWords, h]

/-- Settles O54: the FrequencyTable has one row, and the header is the one entry's after `omega(1)`. -/
theorem singleSymbolHeader : Obligations.SingleSymbolHeader := by
  intro a k ha hk
  have hone : Machine.omega 1 = some [true] := by decide
  have hentry : entryBits (a, [false]) = some (fixed a 7 ++ [true] ++ [false]) :=
    entryBits_eq_some_iff.mpr ⟨ha, _, hone, rfl⟩
  refine ⟨codeWords_of_frequencies_singleton (frequencies_replicate ha hk), _, fix7_of_lt ha, ?_⟩
  exact header_eq_some_iff.mpr ⟨_, _, hone, entriesBits_cons_eq_some_iff.mpr ⟨_, [], hentry, rfl, rfl⟩,
    by simp⟩

end Sys2Proof.Proofs

namespace Sys2Proof.Proofs

open Sys2Proof Sys2Proof.Machine Sys2Proof.Claims

/-! # Errors (60_exceptions.md)

## Entering ERROR (R180, R181) -/

theorem errCode_bounds {c : ErrCode} (h : c ≠ .noError) : 1 ≤ (errCode c).toNat ∧ (errCode c).toNat ≤ 6 := by
  cases c with
  | noError => exact absurd rfl h
  | _ => decide

/-- Settles O40: of the effects of a word only `raise Error` leads into ERROR. -/
theorem errorEntryChangesNothingElse : Obligations.ErrorEntryChangesNothingElse := by
  intro w s t hs h ht
  cases runWord_effect h with
  | raised c _ hc => exact ⟨c, rfl, errCode_bounds hc⟩
  | unchanged | appended => exact absurd ht hs
  | started | abandoned | delivered => cases ht

/-! ## In ERROR (R183) -/

theorem needsOpen_iff_not_mem {i : Instr} :
    needsOpen i = true ↔ i ∉ [Instr.nop, Instr.openC, Instr.abort] := by
  cases i <;> simp [needsOpen, isAppend]

theorem runWord_ignored_of_error {w : CmdWord} {s : State} (hc : s.ctl = .error)
    (hw : decode w ∉ [Decoded.legal .nop, Decoded.legal .openC, Decoded.legal .abort]) :
    runWord w s = .next s := by
  cases hd : decode w with
  | illegal why => rw [runWord_of_illegal s hd, illegalWord, unlessError_of_error hc]
  | legal i =>
    have hi : needsOpen i = true := needsOpen_iff_not_mem.mpr (by simpa [hd] using hw)
    rw [runWord_of_legal s hd, exec_needsOpen_of_error hi hc]

/-- Settles O42: the ignored words, and the three commands that no gate guards. -/
theorem errorStateIsSticky : Obligations.ErrorStateIsSticky := fun _ s hc =>
  ⟨runWord_ignored_of_error hc, fun hd => ⟨_, runWord_of_legal s hd, rfl⟩,
    fun hd => ⟨_, runWord_of_legal s hd, rfl⟩, runWord_of_legal s⟩

/-! ## Leaving ERROR (R184) -/

/-- A word that leaves ERROR is OPEN or ABORT. -/
theorem runWord_leaves_error {w : CmdWord} {s t : State} (hs : s.ctl = .error)
    (h : runWord w s = .next t) (ht : t.ctl ≠ .error) :
    (decode w = .legal .openC ∧ t = Laws.openState s) ∨
      (decode w = .legal .abort ∧ t = { s with ctl := .idle, blen := 0, lastlen := 0 }) := by
  cases runWord_wordEffect h with
  | started hd => exact .inl ⟨hd, rfl⟩
  | abandoned hd => exact .inr ⟨hd, rfl⟩
  | unchanged => exact absurd hs ht
  | raised => exact absurd rfl ht
  | appended _ _ _ _ ho | delivered _ ho => cases hs.symm.trans ho

/-- Settles O43: idling and a read keep STATE, so a word or reset leaves ERROR. -/
theorem errorIsLeftOnlyByOpenAbortReset : Obligations.ErrorIsLeftOnlyByOpenAbortReset := by
  intro s t hs h ht
  obtain ⟨-, rfl⟩ | ⟨w, rest, hp, hw⟩ | ⟨a, rest, -, rfl⟩ | ⟨rest, hp, rfl⟩ := step_cases h
  · exact absurd hs ht
  · obtain ⟨hd, rfl⟩ | ⟨hd, rfl⟩ := runWord_leaves_error (s := { s with pending := rest }) hs hw ht
    · exact .inl ⟨w, rest, hp, hd, rfl, rfl, rfl, rfl⟩
    · exact .inr (.inl ⟨w, rest, hp, hd, rfl, rfl⟩)
  · exact absurd hs ht
  · exact .inr (.inr ⟨rest, hp, rfl, rfl⟩)

/-! ## The order of the errors (R182) -/

theorem tooLong_of_fragment {i : Instr} {f : Bits} {s : State} (hf : fragment i = some f) :
    tooLong s i = decide (s.cfg.bufCap < s.blen + f.length) := by simp only [tooLong, hf]

/-- Only a command with a fragment can overflow. -/
theorem exec_of_tooLong {i : Instr} {s : State} (ho : s.ctl = .opened) (h : tooLong s i = true) :
    exec i s = .next (errorState .overflow s) := by
  cases hf : fragment i with
  | some f => exact exec_fragment_of_overflow hf ho (by simpa [tooLong_of_fragment hf] using h)
  | none => simp [tooLong, hf] at h

/-- In OPEN, an append without an operand error that fits, and COMMIT of a stream, raise no error. -/
theorem exec_needsOpen_of_no_error {i : Instr} {s : State} (hi : needsOpen i = true) (ho : s.ctl = .opened)
    (hop : operandError s i = none) (hfit : tooLong s i = false) :
    ∃ t, exec i s = .next t ∧ t.ctl ≠ .error := by
  obtain happend | rfl : isAppend i = true ∨ i = .commit := by simpa [needsOpen] using hi
  · obtain ⟨f, hf⟩ := exists_fragment happend hop
    obtain ⟨t, hexec, ht⟩ := exec_fragment_of_fits hf ho (by simpa [tooLong_of_fragment hf] using hfit)
    exact ⟨t, hexec, by simp [ht.ctl, ho]⟩
  · exact ⟨_, exec_commit_of_opened ho (by simpa [operandError_commit] using hop), by simp⟩

/-- Outside ERROR, NOP, OPEN and ABORT raise no error. -/
theorem exec_of_not_needsOpen {i : Instr} {s : State} (hs : s.ctl ≠ .error) (hi : needsOpen i = false) :
    ∃ t, exec i s = .next t ∧ t.ctl ≠ .error := by
  cases i with
  | nop => exact ⟨s, rfl, hs⟩
  | openC | abort => exact ⟨_, rfl, by simp⟩
  | omega | fix7 | bits | commit => cases hi

theorem idle_or_done {s : State} (he : s.ctl ≠ .error) (ho : s.ctl ≠ .opened) :
    s.ctl = .idle ∨ s.ctl = .done := by
  cases hc : s.ctl with
  | idle => exact .inl rfl
  | done => exact .inr rfl
  | error => exact absurd hc he
  | opened => exact absurd hc ho

/-- Settles O41: a legal word is its command, and each clause is the rule of one place in the order. -/
theorem firstErrorThatAppliesIsReported : Obligations.FirstErrorThatAppliesIsReported := by
  intro w s
  obtain ⟨-, -, hillegal⟩ := legalExactlyByPredicate w
  refine ⟨fun i => runWord_of_legal s, fun hc hw => (hillegal hw s).2 hc, fun hc i hd hi => ?_,
    fun hc i hd hi => ?_, fun hc hw => (hillegal hw s).1 hc, fun hc i hd => ?_⟩
  · rw [runWord_of_legal s hd, exec_needsOpen_of_error (needsOpen_iff_not_mem.mpr hi) hc]
  · obtain rfl | rfl : i = .openC ∨ i = .abort := by simpa using hi
    all_goals exact ⟨_, runWord_of_legal s hd, by simp⟩
  · rw [runWord_of_legal s hd]
    exact ⟨fun hi ho => exec_needsOpen_of_idle_or_done hi (idle_or_done hc ho),
      fun _ ho _ => exec_of_operandError ho, fun _ ho _ => exec_of_tooLong ho, exec_needsOpen_of_no_error,
      exec_of_not_needsOpen hc⟩

end Sys2Proof.Proofs

namespace Sys2Proof.Proofs

open Sys2Proof Sys2Proof.Machine Sys2Proof.Claims

/-! ## A reset edge at the pins (70_reset_and_hazards.md R200, R201) -/

theorem cmdReady_of_rst (p : PortState) {i : PortIn} (h : i.rst = true) : cmdReady p i = false := by
  simp [cmdReady, h]

theorem regAck_of_rst (p : PortState) {i : PortIn} (d : PortDraw) (h : i.rst = true) :
    regAck p i d = none := by
  simp [regAck, cmdReady_of_rst p h]

theorem snkBeat_of_rst (p : PortState) {i : PortIn} (h : i.rst = true) : snkBeat p i = none := by
  cases hw : p.work with
  | sending w k => simp [snkBeat, hw, h]
  | ready | running => simp [snkBeat, hw]

@[simp] theorem portReset_core (p : PortState) : (portReset p).core = applyReset p.core := rfl
@[simp] theorem portReset_work (p : PortState) : (portReset p).work = .ready := rfl
@[simp] theorem portReset_received (p : PortState) : (portReset p).received = [] := rfl

/-- Settles O60: `rst` masks the three handshakes, and the edge is `portReset` whatever the command in progress
and the Host's holds are. -/
theorem resetAtThePins : Obligations.ResetAtThePins := by
  intro p i d hr
  refine ⟨cmdReady_of_rst p hr, regAck_of_rst p d hr, snkBeat_of_rst p hr, portReset p,
    clockEdge_of_rst d hr, portReset_core p, ?_⟩
  have hready (i' : PortIn) (hr' : i'.rst = false) : cmdReady (portReset p) i' = true :=
    (cmdReady_iff _ _).mpr ⟨hr', portReset_work p⟩
  simpa using hready

end Sys2Proof.Proofs
